-- ==== Sys2Proof/Word.lean ====
section
/-!
DEFINITION. The word types of CA-CORE: a byte (00_scope.md R4 `XLEN`, R5), the 9-bit program counter word
(10_state.md R14) and a register index (10_state.md R10).
-/
namespace Sys2Proof

/-- A register, a memory cell, the flags register, an opcode, an operand: 8 bits, unsigned (00_scope.md R4, R5). -/
abbrev Byte := BitVec 8

/-- The program counter and the `info` half of the fault record: 9 bits (10_state.md R14, R26). -/
abbrev Word9 := BitVec 9

/-- A valid register index, 0 to 7 (10_state.md R10, `NREG` of 00_scope.md R4). -/
abbrev RegIndex := Fin 8

end Sys2Proof
end

