-- ==== Sys2Proof/Config.lean ====
section
/-!
DEFINITION. The parameters of 00_scope.md R4 that the source fixes, the types of the open parameters of
92_eei_decisions.md section 2, and the model's one free value. The VALUES taken for the open parameters stand where a
later repair may mend them, all under the name `Config`: `Config.opc` in Decode.lean, and in Machine/Parameters.lean the others
and all of them together as `Config.params`.
-/
namespace Sys2Proof.Config

/-- `MEM_SIZE` (00_scope.md R4): the number of memory cells. -/
abbrev memSize : Nat := 256

/-- `SP_INDEX` (00_scope.md R4, 10_state.md R12): the register that is the stack pointer. -/
abbrev spIndex : RegIndex := 7

/-- `IMAGE_BASE` (00_scope.md R4): the address of the first byte of the program image. -/
abbrev imageBase : Nat := 0

/-- `IMAGE_MAX` (00_scope.md R4): the greatest length of a program image. -/
abbrev imageMax : Nat := 256

/-- The three parameters `FLAG_E`, `FLAG_L`, `FLAG_G` (00_scope.md R4, 10_state.md R17). -/
structure FlagCodes where
  /-- `FLAG_E`, the flags byte for Equal. -/
  equal : Byte
  /-- `FLAG_L`, the flags byte for Less-than. -/
  less : Byte
  /-- `FLAG_G`, the flags byte for Greater-than. -/
  greater : Byte
deriving DecidableEq, Repr

/-- The constraint on the flag parameters: three distinct values from {0x01, 0x02, 0x04}
(92_eei_decisions.md section 2). -/
abbrev FlagCodes.Legal (c : FlagCodes) : Prop :=
  (c.equal = 1 ∨ c.equal = 2 ∨ c.equal = 4) ∧ (c.less = 1 ∨ c.less = 2 ∨ c.less = 4) ∧
  (c.greater = 1 ∨ c.greater = 2 ∨ c.greater = 4) ∧
  c.equal ≠ c.less ∧ c.equal ≠ c.greater ∧ c.less ≠ c.greater

/-- FREE VALUE (notes/assumptions/9.md). The byte that CALL would push if it were carried out with `pc >= 254`.
44_control.md R101 gives the return address `pc + 2` only for `pc <= 253`, where it is at most 255; no step carries out a
CALL elsewhere (40_engine.md R66), so no run reads this value, and nothing constrains it. -/
opaque returnByteBeyondWindow : Word9 → Byte

end Sys2Proof.Config
end

