-- ==== Sys2Proof/Syntax.lean ====
section
/-!
DEFINITION. The nine instructions of 30_encoding.md R55, one constructor per row of spec/opcode_table.json, with their
operand bytes as they stand in memory (30_encoding.md R50, R53, R54), and the dispatch table's columns: mnemonic,
format, length.
-/
namespace Sys2Proof

/-- The nine mnemonics of the dispatch table (30_encoding.md R55): the keys of the parameter `OPC`. -/
inductive Mnemonic where
  | ldi | hlt | prn | mul | cmp | push | pop | call | ret
deriving DecidableEq, Repr

/-- The four instruction formats (30_encoding.md R50). -/
inductive Format where
  /-- `Z`: no operand, 1 byte. -/
  | z
  /-- `R`: one register, 2 bytes. -/
  | r
  /-- `RR`: two registers, 3 bytes. -/
  | rr
  /-- `RI`: a register and an immediate, 3 bytes. -/
  | ri
deriving DecidableEq, Repr

/-- An instruction with the operand bytes its handler uses. A register operand is the WHOLE operand byte, 0 to 255: a byte
of 8 to 255 is still this instruction, which then raises `RegisterIndex` when it is carried out (30_encoding.md R53), so the
check is the machine's and not the decoder's. -/
inductive Instr where
  /-- LDI reg, value (42_load_and_print.md R90). -/
  | ldi (reg value : Byte)
  /-- HLT (44_control.md R106). -/
  | hlt
  /-- PRN reg (42_load_and_print.md R92). -/
  | prn (reg : Byte)
  /-- MUL regA, regB (41_alu.md R86). -/
  | mul (regA regB : Byte)
  /-- CMP regA, regB (41_alu.md R87). -/
  | cmp (regA regB : Byte)
  /-- PUSH reg (43_stack.md R95). -/
  | push (reg : Byte)
  /-- POP reg (43_stack.md R96). -/
  | pop (reg : Byte)
  /-- CALL reg (44_control.md R101). -/
  | call (reg : Byte)
  /-- RET (44_control.md R104). -/
  | ret
deriving DecidableEq, Repr

/-- The three bytes every step fetches: the opcode and the two candidate operands (40_engine.md R66). -/
structure FetchWindow where
  opcode : Byte
  opa : Byte
  opb : Byte
deriving DecidableEq, Repr

/-- The rows of the dispatch table in the order of 30_encoding.md R55. -/
def Mnemonic.all : List Mnemonic := [.ldi, .hlt, .prn, .mul, .cmp, .push, .pop, .call, .ret]

/-- The format column of 30_encoding.md R55. -/
def Mnemonic.format : Mnemonic → Format
  | .ldi => .ri
  | .hlt => .z
  | .prn => .r
  | .mul => .rr
  | .cmp => .rr
  | .push => .r
  | .pop => .r
  | .call => .r
  | .ret => .z

/-- The length of an instruction in bytes, fixed by its row and never by bits of its opcode (30_encoding.md R50, R51). -/
def Format.length : Format → Nat
  | .z => 1
  | .r => 2
  | .rr => 3
  | .ri => 3

/-- The row an instruction belongs to. -/
def Instr.mnemonic : Instr → Mnemonic
  | .ldi _ _ => .ldi
  | .hlt => .hlt
  | .prn _ => .prn
  | .mul _ _ => .mul
  | .cmp _ _ => .cmp
  | .push _ => .push
  | .pop _ => .pop
  | .call _ => .call
  | .ret => .ret

/-- The operand bytes in the order of their addresses, `opa` before `opb` (30_encoding.md R50). -/
def Instr.operands : Instr → List Byte
  | .ldi reg value => [reg, value]
  | .hlt => []
  | .prn reg => [reg]
  | .mul regA regB => [regA, regB]
  | .cmp regA regB => [regA, regB]
  | .push reg => [reg]
  | .pop reg => [reg]
  | .call reg => [reg]
  | .ret => []

/-- The operand bytes that name a register, in the order they are checked (30_encoding.md R53). -/
def Instr.regOperands : Instr → List Byte
  | .ldi reg _ => [reg]
  | .hlt => []
  | .prn reg => [reg]
  | .mul regA regB => [regA, regB]
  | .cmp regA regB => [regA, regB]
  | .push reg => [reg]
  | .pop reg => [reg]
  | .call reg => [reg]
  | .ret => []

end Sys2Proof
end

