-- ==== Sys2Proof/WellFormed.lean ====
section
/-!
DEFINITION. Well-formed instructions: every register operand is a valid register index (30_encoding.md R53). An ill-formed
instruction still decodes, encodes and runs: it takes the `RegisterIndex` exception.
-/
namespace Sys2Proof

/-- A register operand byte is valid when it is 0 to 7 (30_encoding.md R53). -/
def validRegOperand (b : Byte) : Bool := decide (b.toNat < 8)

/-- Every register operand of the instruction is valid. -/
def Instr.wellFormed (i : Instr) : Bool := i.regOperands.all validRegOperand

/-- The operand byte that `RegisterIndex` reports: the first invalid one, `regA` before `regB` (30_encoding.md R53). -/
def Instr.firstBadOperand (i : Instr) : Option Byte := i.regOperands.find? (fun b => !validRegOperand b)

end Sys2Proof
end

