-- ==== Sys2Proof/Decode.lean ====
section
/-!
DEFINITION. The dispatch table's lookup and the decoder (30_encoding.md R50 to R57, 40_engine.md R67), total on any bytes and
rejecting by name, and after it the encoder. Both take the opcode map `OPC` as an argument, as 30_encoding.md R55 asks; the
machine uses them at `Config.opc`.
-/
namespace Sys2Proof

/-- The parameter `OPC` (00_scope.md R4): an opcode byte for each mnemonic. -/
abbrev OpcodeMap := Mnemonic → Byte

/-- The one constraint on `OPC`: nine distinct bytes (30_encoding.md R55). -/
abbrev OpcodeMap.Injective (opc : OpcodeMap) : Prop := ∀ m n, opc m = opc n → m = n

/-- The default `OPC` of 30_encoding.md R55. PRESUMED (notes/assumptions/1.md): the spec itself takes these nine values from
general knowledge. -/
def Config.opc : OpcodeMap
  | .ldi => 0x82#8
  | .hlt => 0x01#8
  | .prn => 0x47#8
  | .mul => 0xA2#8
  | .cmp => 0xA7#8
  | .push => 0x45#8
  | .pop => 0x46#8
  | .call => 0x50#8
  | .ret => 0x11#8

/-- Why the decoder rejects bytes. -/
inductive Reject where
  /-- The opcode byte is not one of the nine `OPC` values (30_encoding.md R57). -/
  | unknownInstruction (opcode : Byte)
  /-- Fewer than the three bytes that a step always fetches (40_engine.md R66). The machine never decodes so few. -/
  | shortWindow
deriving DecidableEq, Repr

/-- The dispatch table as a lookup: all eight bits of the opcode byte are compared (30_encoding.md R56, 40_engine.md R67). -/
def lookupOpcode (opc : OpcodeMap) (opcode : Byte) : Option Mnemonic :=
  Mnemonic.all.find? (fun m => opc m == opcode)

/-- The instruction of a row with the two candidate operand bytes; a row uses only as many as it needs
(30_encoding.md R50, R52; 40_engine.md R69). -/
def Mnemonic.instr (opa opb : Byte) : Mnemonic → Instr
  | .ldi => .ldi opa opb
  | .hlt => .hlt
  | .prn => .prn opa
  | .mul => .mul opa opb
  | .cmp => .cmp opa opb
  | .push => .push opa
  | .pop => .pop opa
  | .call => .call opa
  | .ret => .ret

/-- The decoder of one fetch: `none` exactly when the opcode is an unknown instruction (40_engine.md R67). -/
def decodeWindow (opc : OpcodeMap) (w : FetchWindow) : Option Instr :=
  (lookupOpcode opc w.opcode).map (Mnemonic.instr w.opa w.opb)

/-- The decoder on any list of bytes, the lowest address first (20_memory.md R35): it reads the first three. -/
def decodeBytes (opc : OpcodeMap) : List Byte → Except Reject Instr
  | opcode :: opa :: opb :: _ =>
    match decodeWindow opc ⟨opcode, opa, opb⟩ with
    | some i => .ok i
    | none => .error (.unknownInstruction opcode)
  | _ => .error .shortWindow

/-- The encoder: the opcode byte, then the operand bytes at ascending addresses (30_encoding.md R50, R55). -/
def encode (opc : OpcodeMap) (i : Instr) : List Byte := opc i.mnemonic :: i.operands

/-- Byte number `k` of a table word: byte 0 is bits 7..0, and every bit from `nbits` up is 0. -/
def tableByte (nbits w k : Nat) : Byte := BitVec.ofNat 8 ((w % 2 ^ nbits) / 256 ^ k)

/-- The instruction that the decoder reads from a table word, its bytes laid out first at the lowest address. -/
def decodeTableWord (nbits w : Nat) : Option Instr :=
  match decodeBytes Config.opc [tableByte nbits w 0, tableByte nbits w 1, tableByte nbits w 2] with
  | .ok i => some i
  | .error _ => none

end Sys2Proof
end

