-- ==== Sys2Proof/Machine/Parameters.lean ====
section
/-!
DEFINITION. The open parameters of 00_scope.md R4 as one argument, `Config.Params`, which the parametric machine of
Machine/Parametric.lean and `State.resetAt` take, and their defaults, `Config.params`. The values stand here, and not in
Config.lean, so that a later repair may mend them.
-/
namespace Sys2Proof.Config

/-- `PC_RESET` (00_scope.md R4). -/
def pcReset : Word9 := 0#9

/-- `SP_RESET` (00_scope.md R4): register 7 after reset. -/
def spReset : Byte := 255#8

/-- The default `FLAG_E`, `FLAG_L`, `FLAG_G` of 10_state.md R17. PRESUMED (notes/assumptions/2.md): the spec itself takes the
bit positions from general knowledge. -/
def flags : FlagCodes := { equal := 0x01#8, less := 0x04#8, greater := 0x02#8 }

/-- `REG_RESET`, registers 0 to 6 after reset. DESIGN CHOICE of the spec, 92_eei_decisions.md D3 (notes/assumptions/3.md). -/
def regReset : Byte := 0#8

/-- `FL_RESET`, the flags register after reset. DESIGN CHOICE of the spec, D4 (notes/assumptions/4.md). -/
def flReset : Byte := 0#8

/-- `MEM_FILL`, what a memory cell holds that nothing has written since reset. DESIGN CHOICE of the spec, D5
(notes/assumptions/5.md). -/
def memFill : Byte := 0#8

/-- `EXIT_FAULT`, the exit status reported for a fault: the default of D10; the source says only 'non-zero'
(notes/assumptions/7.md). Operations take it as an argument; claims speak of every non-zero value. -/
def exitFault : Nat := 1

/-- The parameters that stay open (92_eei_decisions.md section 2), in one place. `OUT_RENDER` has no default and is an
argument of `renderedOutput` alone. -/
structure Params where
  /-- `OPC`, the opcode bytes. -/
  opc : OpcodeMap
  /-- `FLAG_E`, `FLAG_L`, `FLAG_G`. -/
  flags : FlagCodes
  /-- `REG_RESET`, registers 0 to 6 after reset. -/
  regReset : Byte
  /-- `FL_RESET`, the flags register after reset. -/
  flReset : Byte
  /-- `MEM_FILL`, every memory cell the image does not cover. -/
  memFill : Byte
  /-- `EXIT_FAULT`, the exit status of a fault. -/
  exitFault : Nat

/-- The constraints on the parameters (92_eei_decisions.md section 2): distinct opcodes, distinct flag bits, `FL_RESET = 0` for
10_state.md R18 to hold as written, and a non-zero exit status. -/
abbrev Params.Legal (p : Params) : Prop :=
  p.opc.Injective ∧ p.flags.Legal ∧ p.flReset = 0#8 ∧ p.exitFault ≠ 0

/-- The defaults of 00_scope.md R4, at which `exec`, `step` and `State.reset` stand. -/
def params : Params where
  opc := opc
  flags := flags
  regReset := regReset
  flReset := flReset
  memFill := memFill
  exitFault := exitFault

end Sys2Proof.Config
end

