-- ==== Sys2Proof/Machine/Memory.lean ====
section
/-!
DEFINITION. Memory as plain data (20_memory.md R30, R40): reading and writing one cell, the canonical form, and memory filled
with `MEM_FILL`. The bounds check is not here: it is in `memRead` and `memWrite` of Machine/Ops.lean (R32, R33).
-/
namespace Sys2Proof.Machine

/-- Memory (20_memory.md R30): the cells that are not blank, by rising address. An address that is not listed reads as
`Memory.blank`; `Memory.wf` is the canonical form. -/
structure Memory where
  cells : List Host.Cell
deriving DecidableEq, Repr

/-- What an unlisted address reads as: the blank of the sparse form. It is no parameter of the machine: what unloaded cells
hold is `MEM_FILL`, which `Memory.filled` writes (notes/assumptions/5.md). -/
def Memory.blank : Byte := 0#8

/-- What the address reads as in a list of cells: the first entry for it, or blank. -/
def Memory.lookup (a : Nat) : List Host.Cell → Byte
  | [] => Memory.blank
  | c :: rest => if c.1 = a then c.2 else Memory.lookup a rest

/-- The cell `mem[a]` (20_memory.md R30). -/
def Memory.read (m : Memory) (a : Nat) : Byte := Memory.lookup a m.cells

/-- The list without any entry for the address. -/
def Memory.eraseCell (a : Nat) (cells : List Host.Cell) : List Host.Cell :=
  cells.filter (fun c => !decide (c.1 = a))

/-- The list with an entry put in before the first greater address. -/
def Memory.insertCell (a : Nat) (v : Byte) : List Host.Cell → List Host.Cell
  | [] => [(a, v)]
  | c :: rest => if a < c.1 then (a, v) :: c :: rest else c :: Memory.insertCell a v rest

/-- `mem[a] <- v` (20_memory.md R33). Writing a blank leaves no entry. -/
def Memory.write (m : Memory) (a : Nat) (v : Byte) : Memory :=
  ⟨if v = Memory.blank then Memory.eraseCell a m.cells
   else Memory.insertCell a v (Memory.eraseCell a m.cells)⟩

/-- The canonical form: addresses strictly rise, each names a cell, and no entry is blank. -/
abbrev Memory.wf (m : Memory) : Prop :=
  m.cells.Pairwise (fun c d => c.1 < d.1) ∧ ∀ c ∈ m.cells, c.1 < Config.memSize ∧ c.2 ≠ Memory.blank

/-- Byte after byte from an address on, as the image load copies them (70_reset_and_hazards.md R132). -/
def Memory.writeFrom (m : Memory) (a : Nat) : List Byte → Memory
  | [] => m
  | v :: rest => Memory.writeFrom (m.write a v) (a + 1) rest

/-- Memory with `MEM_FILL` in all 256 cells (10_state.md R25): nothing is listed where the fill is the blank. -/
def Memory.filled (fill : Byte) : Memory :=
  if fill = Memory.blank then ⟨[]⟩ else Memory.writeFrom ⟨[]⟩ 0 (List.replicate Config.memSize fill)

end Sys2Proof.Machine
end

