-- ==== Sys2Proof/Machine/State.lean ====
section
/-!
DEFINITION. The whole state of CA-CORE (10_state.md, the tuple at its head; R10 to R25) as plain data, the reasons an outcome
other than a next state could carry, and the state after reset.
-/
namespace Sys2Proof.Machine

/-- The run state (10_state.md R20). -/
inductive RunState where
  | running | halted | faulted
deriving DecidableEq, Repr

/-- The kinds of fault (60_exceptions.md R112). `cause = None` of 10_state.md R21 is `none : Option Cause`. -/
inductive Cause where
  /-- Raised by `memRead` and `memWrite` for an address above 255 (20_memory.md R32, R33). -/
  | outOfBounds
  /-- Raised by dispatch for an opcode that is not in the table (40_engine.md R67). -/
  | unknownInstruction
  /-- Raised by the ALU's select port for a tag it does not know (41_alu.md R85); no program can cause it. -/
  | unsupportedAluOp
  /-- Raised by `regIdx` for a register operand byte of 8 to 255 (30_encoding.md R53). -/
  | registerIndex
deriving DecidableEq, Repr

/-- What `raise K(i)` carries: the kind and the offending value (60_exceptions.md R113). -/
structure Exc where
  cause : Cause
  info : Nat
deriving DecidableEq, Repr

/-- The whole state (10_state.md): nothing else is state (R19, R23, R24). -/
structure State where
  /-- `x[0]` to `x[7]`, the general registers; `x[7]` is `SP` (R10, R12). -/
  x : Vector Byte 8
  /-- The program counter, 0 to 256 (R14). -/
  pc : Word9
  /-- The flags register `FL` (R17). -/
  fl : Byte
  /-- The one flat memory of 256 byte cells (20_memory.md R30). -/
  mem : Memory
  /-- The run state (R20). -/
  run : RunState
  /-- The kind half of the fault record, `none` while there is no fault (R21). -/
  cause : Option Cause
  /-- The value half of the fault record, 0 while there is no fault (R21). -/
  info : Word9
  /-- The values emitted by PRN since reset, in order (R22). -/
  out : List Byte
deriving DecidableEq, Repr

/-- The reasons for the outcome `fault`: NONE. Every fault of the spec is an exception with a described entry: the step
that raises it has a NEXT state, `run = Faulted` with the fault record written (60_exceptions.md R113, R116), and no
behaviour is left that would stop the machine in any other way. SAFE: nothing raises it. -/
inductive Fault where
deriving DecidableEq, Repr

/-- The reasons for the outcome `refused`. -/
inductive Refusal where
  /-- Raised by an arm of `exec` whose instruction has no meaning yet. No arm raises it: all nine have their meaning. SAFE. -/
  | notModelled (mnemonic : String)
deriving DecidableEq, Repr

/-- The state after reset with an empty image (10_state.md R25, 70_reset_and_hazards.md R130), for any values of the parameters
`REG_RESET`, `FL_RESET` and `MEM_FILL`. -/
def State.resetAt (p : Config.Params) : State where
  x := (Vector.replicate 8 p.regReset).set 7 Config.spReset
  pc := Config.pcReset
  fl := p.flReset
  mem := Memory.filled p.memFill
  run := .running
  cause := none
  info := 0#9
  out := []

/-- The state after reset at the default parameters (00_scope.md R4; notes/assumptions/3.md, 4.md, 5.md). -/
def State.reset : State := State.resetAt Config.params

end Sys2Proof.Machine
end

