-- ==== Sys2Proof/Machine/Ops.lean ====
section
/-!
DEFINITION. The pseudocode primitives of 00_scope.md R7 over the state: registers, the program counter, the stack pointer,
the checked memory accesses, the output port, the run state, and taking an exception. An instruction's pseudocode is a value
of `Except Exc State`; `complete` turns it into the state after the step.
-/
namespace Sys2Proof.Machine

/-- `trunc8(v)`: `v mod 256`, also for negative `v` (00_scope.md R7). -/
def trunc8 (v : Int) : Byte := BitVec.ofInt 8 v

/-- `zext_9(v)`: the byte as a 9-bit value (00_scope.md R7). -/
def zext9 (v : Byte) : Word9 := v.setWidth 9

/-- `x[r]` (10_state.md R10). -/
def State.reg (s : State) (r : RegIndex) : Byte := s.x.get r

/-- `x[r] <- v` (10_state.md R10). No register is hardwired. -/
def State.setReg (s : State) (r : RegIndex) (v : Byte) : State := { s with x := s.x.set r v }

/-- `SP`, another name for `x[7]` (10_state.md R12). -/
def State.sp (s : State) : Byte := s.reg Config.spIndex

/-- `SP <- trunc8(SP - 1)` (10_state.md R13). -/
def State.decSp (s : State) : State := s.setReg Config.spIndex (trunc8 ((s.sp.toNat : Int) - 1))

/-- `SP <- trunc8(SP + 1)` (10_state.md R13). -/
def State.incSp (s : State) : State := s.setReg Config.spIndex (trunc8 ((s.sp.toNat : Int) + 1))

/-- `pc <- t` (10_state.md R14). -/
def State.setPc (s : State) (t : Word9) : State := { s with pc := t }

/-- `pc <- pc + n` (10_state.md R15). Wherever an instruction runs, `pc <= 253`, and the sum is exact (R16); see
notes/assumptions/8.md for the states that no run reaches. -/
def State.advancePc (s : State) (n : Nat) : State := s.setPc (s.pc + BitVec.ofNat 9 n)

/-- `FL <- v` (10_state.md R18). -/
def State.setFl (s : State) (v : Byte) : State := { s with fl := v }

/-- `Emit(v)`: append to the output sequence (10_state.md R22). -/
def State.emit (s : State) (v : Byte) : State := { s with out := s.out ++ [v] }

/-- `Halt()`: `run <- Halted` (44_control.md R106). -/
def State.halt (s : State) : State := { s with run := .halted }

/-- `mem[a] <- v`, no other cell changes (20_memory.md R33). -/
def State.store (s : State) (a : Nat) (v : Byte) : State := { s with mem := s.mem.write a v }

/-- `MemRead(addr, 1)` (20_memory.md R32): every address is a natural number, and one above 255 raises `OutOfBounds`. -/
def memRead (a : Nat) (s : State) : Except Exc Byte :=
  if a < Config.memSize then .ok (s.mem.read a) else .error ⟨.outOfBounds, a⟩

/-- `MemWrite(addr, 1, v)` (20_memory.md R33). -/
def memWrite (a : Nat) (v : Byte) (s : State) : Except Exc State :=
  if a < Config.memSize then .ok (s.store a v) else .error ⟨.outOfBounds, a⟩

/-- TAKING AN EXCEPTION, `raise K(i)` (60_exceptions.md R113, R116): `run <- Faulted`, `cause <- K`, `info <- i` and nothing
else; no handler is entered and nothing is saved. There is no return from one (R117): only a reset leaves `Faulted`
(`applyReset` of Machine/Interface.lean). -/
def takeException (e : Exc) (s : State) : State :=
  { s with run := .faulted, cause := some e.cause, info := BitVec.ofNat 9 e.info }

/-- The state after a step whose pseudocode is `body`: a raise abandons the instruction, so nothing that `body` did before it
is kept (60_exceptions.md R113). -/
def complete (s : State) (body : Except Exc State) : State :=
  match body with
  | .ok t => t
  | .error e => takeException e s

/-- The return address CALL stores (44_control.md R101): `pc + 2`, which fits a byte exactly when `pc <= 253`, as it is
wherever a CALL runs. Elsewhere the spec states no value: FREE (notes/assumptions/9.md). -/
def returnByte (pc : Word9) : Byte :=
  if pc.toNat ≤ 253 then trunc8 ((pc.toNat : Int) + 2) else Config.returnByteBeyondWindow pc

end Sys2Proof.Machine
end

