-- ==== Sys2Proof/Machine/Flags.lean ====
section
/-!
DEFINITION. The one flag computation of the machine, that of COMPARE (41_alu.md R84). It takes the flag values as an argument
(10_state.md R17); their defaults are `Config.flags` of Machine/Parameters.lean.
-/
namespace Sys2Proof.Machine

/-- The flags byte after a comparison of two unsigned bytes (41_alu.md R84): the whole byte is overwritten. -/
def compareFlags (c : Config.FlagCodes) (a b : Byte) : Byte :=
  if a = b then c.equal else if a.toNat < b.toNat then c.less else c.greater

end Sys2Proof.Machine
end

