-- ==== Sys2Proof/Machine/Operands.lean ====
section
/-!
DEFINITION. The two operand forms of the machine: a register index (30_encoding.md R53) and a literal byte (R54). The only
addressing mode is through `SP` (43_stack.md R94), which is `State.sp` itself.
-/
namespace Sys2Proof.Machine

/-- `RegIdx(b)` (30_encoding.md R53): the whole byte is the index; 8 to 255 raises `RegisterIndex`. -/
def regIdx (b : Byte) : Except Exc RegIndex :=
  if h : b.toNat < 8 then .ok ⟨b.toNat, h⟩ else .error ⟨.registerIndex, b.toNat⟩

/-- The immediate operand: the byte as it stands, neither extended nor scaled (30_encoding.md R54). -/
def immediate (b : Byte) : Byte := b

end Sys2Proof.Machine
end

