-- ==== Sys2Proof/Machine/Alu.lean ====
section
/-!
DEFINITION. The ALU (41_alu.md R80 to R85) and the two instructions that use it, MUL (R86) and CMP (R87).
-/
namespace Sys2Proof.Machine

/-- The ALU's operation tags (41_alu.md R81): not opcodes, and invisible to a program. -/
inductive AluTag where
  | add | multiply | compare
deriving DecidableEq, Repr

/-- The 2-bit select of a tag (41_alu.md R81). -/
def AluTag.select : AluTag → BitVec 2
  | .add => 0
  | .multiply => 1
  | .compare => 2

/-- The tag of a 2-bit select; 3 selects no supported operation (41_alu.md R81). -/
def aluTagOf (sel : BitVec 2) : Option AluTag :=
  if sel = 0 then some .add else if sel = 1 then some .multiply else if sel = 2 then some .compare else none

/-- `Alu(tag, a, b)` (41_alu.md R82, R83, R84) under any flag values: exact arithmetic on the unsigned values, narrowed at the
end. ADD is here although no instruction invokes it (R82). -/
def aluOpWith (c : Config.FlagCodes) (tag : AluTag) (a b : RegIndex) (s : State) : State :=
  match tag with
  | .add => s.setReg a (trunc8 ((s.reg a).toNat + (s.reg b).toNat))
  | .multiply => s.setReg a (trunc8 ((s.reg a).toNat * (s.reg b).toNat))
  | .compare => s.setFl (compareFlags c (s.reg a) (s.reg b))

/-- The ALU behind its select port: an unsupported select raises `UnsupportedAluOp` (41_alu.md R85). -/
def aluPortWith (c : Config.FlagCodes) (sel : BitVec 2) (a b : RegIndex) (s : State) : Except Exc State :=
  match aluTagOf sel with
  | some tag => .ok (aluOpWith c tag a b s)
  | none => .error ⟨.unsupportedAluOp, sel.toNat⟩

/-- The ALU at the default flag values (00_scope.md R4). -/
def aluOp (tag : AluTag) (a b : RegIndex) (s : State) : State := aluOpWith Config.flags tag a b s

/-- The ALU's port at the default flag values (00_scope.md R4). -/
def aluPort (sel : BitVec 2) (a b : RegIndex) (s : State) : Except Exc State := aluPortWith Config.flags sel a b s

/-- MUL regA, regB (41_alu.md R86). -/
def execMulWith (c : Config.FlagCodes) (regA regB : Byte) (s : State) : Host.Outcome State Fault Refusal :=
  .next (complete s do
    let a ← regIdx regA
    let b ← regIdx regB
    let s1 ← aluPortWith c AluTag.multiply.select a b s
    pure (s1.advancePc 3))

/-- CMP regA, regB (41_alu.md R87). -/
def execCmpWith (c : Config.FlagCodes) (regA regB : Byte) (s : State) : Host.Outcome State Fault Refusal :=
  .next (complete s do
    let a ← regIdx regA
    let b ← regIdx regB
    let s1 ← aluPortWith c AluTag.compare.select a b s
    pure (s1.advancePc 3))

/-- MUL at the default flag values, which it does not use. -/
def execMul (regA regB : Byte) (s : State) : Host.Outcome State Fault Refusal := execMulWith Config.flags regA regB s

/-- CMP at the default flag values. -/
def execCmp (regA regB : Byte) (s : State) : Host.Outcome State Fault Refusal := execCmpWith Config.flags regA regB s

end Sys2Proof.Machine
end

