-- ==== Sys2Proof/Machine/Control.lean ====
section
/-!
DEFINITION. The instructions CALL (44_control.md R101, R102), RET (R104) and HLT (R106).
-/
namespace Sys2Proof.Machine

/-- CALL reg (44_control.md R101): the target is read after the decrement of `SP` and after the store (R102). -/
def execCall (reg : Byte) (s : State) : Host.Outcome State Fault Refusal :=
  .next (complete s do
    let r ← regIdx reg
    let s1 := s.decSp
    let s2 ← memWrite s1.sp.toNat (returnByte s1.pc) s1
    pure (s2.setPc (zext9 (s2.reg r))))

/-- RET (44_control.md R104). -/
def execRet (s : State) : Host.Outcome State Fault Refusal :=
  .next (complete s do
    let target ← memRead s.sp.toNat s
    pure (s.setPc (zext9 target)).incSp)

/-- HLT (44_control.md R106): `pc` is not written. -/
def execHlt (s : State) : Host.Outcome State Fault Refusal := .next s.halt

end Sys2Proof.Machine
end

