-- ==== Sys2Proof/Machine/LoadPrint.lean ====
section
/-!
DEFINITION. The instructions LDI (42_load_and_print.md R90) and PRN (R92).
-/
namespace Sys2Proof.Machine

/-- LDI reg, value (42_load_and_print.md R90). -/
def execLdi (reg value : Byte) (s : State) : Host.Outcome State Fault Refusal :=
  .next (complete s do
    let r ← regIdx reg
    pure ((s.setReg r (immediate value)).advancePc 3))

/-- PRN reg (42_load_and_print.md R92). -/
def execPrn (reg : Byte) (s : State) : Host.Outcome State Fault Refusal :=
  .next (complete s do
    let r ← regIdx reg
    pure ((s.emit (s.reg r)).advancePc 2))

end Sys2Proof.Machine
end

