-- ==== Sys2Proof/Machine/Stack.lean ====
section
/-!
DEFINITION. The instructions PUSH (43_stack.md R95) and POP (R96), their statements carried out in the order written also when
the operand is the stack pointer itself (R97).
-/
namespace Sys2Proof.Machine

/-- PUSH reg (43_stack.md R95): `x[r]` is read after the decrement. -/
def execPush (reg : Byte) (s : State) : Host.Outcome State Fault Refusal :=
  .next (complete s do
    let r ← regIdx reg
    let s1 := s.decSp
    let s2 ← memWrite s1.sp.toNat (s1.reg r) s1
    pure (s2.advancePc 2))

/-- POP reg (43_stack.md R96): the increment is applied after the write of `x[r]`. -/
def execPop (reg : Byte) (s : State) : Host.Outcome State Fault Refusal :=
  .next (complete s do
    let r ← regIdx reg
    let v ← memRead s.sp.toNat s
    pure ((s.setReg r v).incSp.advancePc 2))

end Sys2Proof.Machine
end

