-- ==== Sys2Proof/Machine/Dispatch.lean ====
section
/-!
DEFINITION. Execute (40_engine.md R68, R69): one arm per instruction of the dispatch table.
-/
namespace Sys2Proof.Machine

def exec (i : Instr) (s : State) : Host.Outcome State Fault Refusal :=
  match i with
  | .ldi reg value => Sys2Proof.Machine.execLdi reg value s
  | .hlt => Sys2Proof.Machine.execHlt s
  | .prn reg => Sys2Proof.Machine.execPrn reg s
  | .mul regA regB => Sys2Proof.Machine.execMul regA regB s
  | .cmp regA regB => Sys2Proof.Machine.execCmp regA regB s
  | .push reg => Sys2Proof.Machine.execPush reg s
  | .pop reg => Sys2Proof.Machine.execPop reg s
  | .call reg => Sys2Proof.Machine.execCall reg s
  | .ret => Sys2Proof.Machine.execRet s

end Sys2Proof.Machine
end

