-- ==== Sys2Proof/Machine/Fetch.lean ====
section
/-!
DEFINITION. Fetch (40_engine.md R66), dispatch (R67) and the engine's loop body (R69), and placing a program's bytes where the
next fetch reads them.
-/
namespace Sys2Proof.Machine

/-- Fetch (40_engine.md R66): three checked reads in this order, whatever the opcode is. -/
def fetch (s : State) : Except Exc FetchWindow := do
  let opcode ← memRead s.pc.toNat s
  let opa ← memRead (s.pc.toNat + 1) s
  let opb ← memRead (s.pc.toNat + 2) s
  pure ⟨opcode, opa, opb⟩

/-- Dispatch (40_engine.md R67) under any opcode map: an opcode outside the table raises `UnknownInstruction`. -/
def dispatchWith (opc : OpcodeMap) (w : FetchWindow) : Except Exc Instr :=
  match decodeWindow opc w with
  | some i => .ok i
  | none => .error ⟨.unknownInstruction, w.opcode.toNat⟩

/-- The instruction the next step carries out under an opcode map, or what the step raises before it (40_engine.md R66,
R67). -/
def fetchInstrWith (opc : OpcodeMap) (s : State) : Except Exc Instr := do
  let w ← fetch s
  dispatchWith opc w

/-- Dispatch at the default opcode map (00_scope.md R4). -/
def dispatch (w : FetchWindow) : Except Exc Instr := dispatchWith Config.opc w

/-- Fetch and dispatch at the default opcode map (00_scope.md R4). -/
def fetchInstr (s : State) : Except Exc Instr := fetchInstrWith Config.opc s

/-- `Step()` (40_engine.md R69) under an opcode map and with the handlers of the dispatch table. While `run` is `Halted` or
`Faulted` no step is taken and no state changes (R65, R71): the answer is then the state itself (notes/assumptions/6.md). -/
def engineStep (opc : OpcodeMap) (handler : Instr → State → Host.Outcome State Fault Refusal) (s : State) :
    Host.Outcome State Fault Refusal :=
  match s.run with
  | .running =>
    match fetchInstrWith opc s with
    | .error e => .next (takeException e s)
    | .ok i => handler i s
  | .halted => .next s
  | .faulted => .next s

/-- The state with the three bytes of a table word at `pc`, `pc + 1`, `pc + 2`; unchanged where those are not all cells. -/
def storeFetchWord (s : State) (nbits w : Nat) : State :=
  let stored : Except Exc State := do
    let s1 ← memWrite s.pc.toNat (tableByte nbits w 0) s
    let s2 ← memWrite (s.pc.toNat + 1) (tableByte nbits w 1) s1
    memWrite (s.pc.toNat + 2) (tableByte nbits w 2) s2
  match stored with
  | .ok t => t
  | .error _ => s

end Sys2Proof.Machine
end

