-- ==== Sys2Proof/Machine/Step.lean ====
section
/-!
DEFINITION. One step of the machine (40_engine.md R65, R69), and placing the next instruction.
-/
namespace Sys2Proof.Machine

/-- `Step()` (40_engine.md R69) at the default parameters (00_scope.md R4), its handlers the arms of `exec`. -/
def step (s : State) : Host.Outcome State Fault Refusal := engineStep Config.opc exec s

/-- The state with an instruction's bytes where the next step fetches them (`pc` to `pc + 2`). Only memory changes; a
Running state with `pc <= 253` then runs exactly that instruction (notes/assumptions/10.md). -/
def State.withFetchWord (s : State) (nbits w : Nat) : State := storeFetchWord s nbits w

end Sys2Proof.Machine
end

