-- ==== Sys2Proof/Machine/Interface.lean ====
section
/-!
DEFINITION. What the host does to the machine and reads from it (10_state.md R26 to R28, 70_reset_and_hazards.md R130 to R133,
R141, R142). None of it happens during a run. The signals are the spec's own (92_eei_decisions.md D24); the information that
crosses them is modelled. A step is only taken after `start` (R131), so `start` needs no state: it is where a run's first
step begins.
-/
namespace Sys2Proof.Machine

/-- Port `reset` (70_reset_and_hazards.md R130): from any state, everything takes its reset value and nothing survives. The
parameters are an argument. -/
def applyReset (_ : State) (p : Config.Params := Config.params) : State := State.resetAt p

/-- Port `load(image)` (70_reset_and_hazards.md R132): refused (`none`) for an image longer than 256 elements or with an
element that is not a byte; otherwise element `i` goes to address `i` and nothing but memory changes. -/
def load (img : List Nat) (s : State) : Option State :=
  if img.length ≤ Config.imageMax ∧ ∀ v ∈ img, v < 256 then
    some { s with mem := s.mem.writeFrom Config.imageBase (img.map (BitVec.ofNat 8)) }
  else none

/-- Reset, then load (70_reset_and_hazards.md R131): the state in which the first step begins (R133), if a run exists. -/
def boot (img : List Nat) : Option State := load img State.reset

/-- The same for any parameters. -/
def bootAt (p : Config.Params) (img : List Nat) : Option State := load img (State.resetAt p)

/-- Port `exit_status` (10_state.md R27): defined only in a terminal state. `EXIT_FAULT` is an argument. -/
def exitStatus (s : State) (exitFault : Nat := Config.exitFault) : Option Nat :=
  match s.run with
  | .running => none
  | .halted => some 0
  | .faulted => some exitFault

/-- Port `run[1:0]` (10_state.md R26). -/
def RunState.code : RunState → BitVec 2
  | .running => 0
  | .halted => 1
  | .faulted => 2

/-- The codes `CAUSE_*` on port `cause[2:0]` (60_exceptions.md R112). The spec gives `None` no code. -/
def Cause.code : Cause → BitVec 3
  | .outOfBounds => 1
  | .unknownInstruction => 2
  | .unsupportedAluOp => 3
  | .registerIndex => 4

/-- Port `cause[2:0]` (10_state.md R26), `none` where there is no fault. The codes `CAUSE_*` are an argument. -/
def causePort (s : State) (codes : Cause → BitVec 3 := Cause.code) : Option (BitVec 3) := s.cause.map codes

/-- The transfers on the output port between an earlier state and a later one (10_state.md R22, R26). -/
def emittedSince (earlier later : State) : List Byte := later.out.drop earlier.out.length

/-- The output as text under a rendering `OUT_RENDER`, which the spec leaves open (92_eei_decisions.md D11). -/
def renderedOutput (render : Byte → String) (s : State) : List String := s.out.map render

/-- The result of an ended run (70_reset_and_hazards.md R142): the run state, the output and the fault record. -/
def runResult (s : State) : Option (RunState × List Byte × Option Cause × Word9) :=
  match s.run with
  | .running => none
  | .halted => some (s.run, s.out, s.cause, s.info)
  | .faulted => some (s.run, s.out, s.cause, s.info)

end Sys2Proof.Machine
end

