-- ==== Sys2Proof/Machine/Parametric.lean ====
section
/-!
DEFINITION. The machine with the open parameters of 00_scope.md R4 as an argument: `OPC` selects the instruction, the flag
values reach CMP, and nothing else of a step depends on a parameter. `exec`, `step` and `State.reset` are this machine at
`Config.params`. (`REG_RESET`, `FL_RESET`, `MEM_FILL`: `State.resetAt`; `EXIT_FAULT`: `exitStatus`.)
-/
namespace Sys2Proof.Machine

/-- Execute (40_engine.md R68) under any parameters. -/
def execAt (p : Config.Params) (i : Instr) (s : State) : Host.Outcome State Fault Refusal :=
  match i with
  | .ldi reg value => execLdi reg value s
  | .hlt => execHlt s
  | .prn reg => execPrn reg s
  | .mul regA regB => execMulWith p.flags regA regB s
  | .cmp regA regB => execCmpWith p.flags regA regB s
  | .push reg => execPush reg s
  | .pop reg => execPop reg s
  | .call reg => execCall reg s
  | .ret => execRet s

/-- `Step()` (40_engine.md R69) under any parameters. -/
def stepAt (p : Config.Params) (s : State) : Host.Outcome State Fault Refusal := engineStep p.opc (execAt p) s

end Sys2Proof.Machine
end

