-- ==== Sys2Proof/Safety.lean ====
section
/-!
DEFINITION. The words claims are stated in: the instruction a step carries out, the registers and the byte of memory an
instruction writes, and the invariant of the machine.
-/
namespace Sys2Proof.Machine

/-- A step is about to carry out this instruction: the machine is running and fetch and dispatch give it
(40_engine.md R65 to R67). -/
def State.Executes (s : State) (i : Instr) : Prop := s.run = .running ∧ fetchInstr s = .ok i

/-- The three bytes of the fetch window at `pc`, without the bounds check (40_engine.md R66). -/
def State.windowBytes (s : State) : FetchWindow :=
  ⟨s.mem.read s.pc.toNat, s.mem.read (s.pc.toNat + 1), s.mem.read (s.pc.toNat + 2)⟩

/-- A byte is the opcode of some row of the dispatch table (30_encoding.md R55, R56). -/
abbrev InTable (opc : OpcodeMap) (b : Byte) : Prop := ∃ m, opc m = b

/-- A register operand byte names this register (30_encoding.md R53). -/
abbrev Names (b : Byte) (r : RegIndex) : Prop := b.toNat = r.val

/-- The registers an instruction writes when it completes (10_state.md R11, the right column of its table). -/
def WritesReg : Instr → RegIndex → Prop
  | .ldi reg _, k => Names reg k
  | .hlt, _ => False
  | .prn _, _ => False
  | .mul regA _, k => Names regA k
  | .cmp _ _, _ => False
  | .push _, k => k = Config.spIndex
  | .pop reg, k => Names reg k ∨ k = Config.spIndex
  | .call _, k => k = Config.spIndex
  | .ret, k => k = Config.spIndex

/-- The address an instruction stores to when it completes, as its meaning computes it: `SP` after the decrement for PUSH
and CALL (20_memory.md R31), none for the others. -/
def storeAddress : Instr → State → Option Nat
  | .ldi _ _, _ => none
  | .hlt, _ => none
  | .prn _, _ => none
  | .mul _ _, _ => none
  | .cmp _ _, _ => none
  | .push _, s => some s.decSp.sp.toNat
  | .pop _, _ => none
  | .call _, s => some s.decSp.sp.toNat
  | .ret, _ => none

/-- The run state and the fault record are the same in both states. -/
structure SameStatus (s t : State) : Prop where
  run : t.run = s.run
  cause : t.cause = s.cause
  info : t.info = s.info

/-- Every cell of memory reads the same in both states. -/
def SameMemory (s t : State) : Prop := ∀ a, t.mem.read a = s.mem.read a

/-- Every cell of memory but one reads the same in both states. -/
def SameMemoryBut (a : Nat) (s t : State) : Prop := ∀ b, b ≠ a → t.mem.read b = s.mem.read b

/-- Every register reads the same in both states. -/
def SameRegs (s t : State) : Prop := ∀ k, t.reg k = s.reg k

/-- Every register but one reads the same in both states. -/
def SameRegsBut (r : RegIndex) (s t : State) : Prop := ∀ k, k ≠ r → t.reg k = s.reg k

/-- The later state is the earlier one with a fault recorded and nothing else changed (60_exceptions.md R113). -/
def FaultedWith (c : Cause) (info : Word9) (s t : State) : Prop :=
  t = { s with run := .faulted, cause := some c, info := info }

/-- The fault record of a Faulted machine says what happened at `pc` (60_exceptions.md R112, R113, R114): `OutOfBounds(256)` of
a fetch at 254 or above, `UnknownInstruction` of the byte at `pc`, or `RegisterIndex` of the first bad operand of the
instruction at `pc`; never `UnsupportedAluOp`. -/
def State.faultRecordOk (opc : OpcodeMap) (s : State) : Prop :=
  match s.cause with
  | none => False
  | some .outOfBounds => 254 ≤ s.pc.toNat ∧ s.info = 256#9
  | some .unknownInstruction =>
    s.pc.toNat ≤ 253 ∧ ¬ InTable opc (s.mem.read s.pc.toNat) ∧ s.info = zext9 (s.mem.read s.pc.toNat)
  | some .unsupportedAluOp => False
  | some .registerIndex =>
    s.pc.toNat ≤ 253 ∧ ∃ i b, decodeWindow opc s.windowBytes = some i ∧ i.firstBadOperand = some b ∧ s.info = zext9 b

/-- The flags byte holds no comparison or exactly one result (10_state.md R18), under any flag values. -/
def flagsLegalWith (c : Config.FlagCodes) (fl : Byte) : Prop := fl = 0#8 ∨ fl = c.equal ∨ fl = c.less ∨ fl = c.greater

/-- The flags byte is legal at the default flag values. -/
abbrev flagsLegal (fl : Byte) : Prop := flagsLegalWith Config.flags fl

/-- The invariant of the machine under any parameters: what the spec says holds at every moment of every run. -/
structure State.InvAt (p : Config.Params) (s : State) : Prop where
  /-- Memory keeps its canonical form, and lists none but the 256 cells (20_memory.md R30). -/
  memory : s.mem.wf
  /-- `pc` is 0 to 256 (10_state.md R14, R16). -/
  pcRange : s.pc.toNat ≤ 256
  /-- `FL` is 0 or one of the three flag values (10_state.md R18). -/
  flags : flagsLegalWith p.flags s.fl
  /-- While the machine is not Faulted there is no fault record (10_state.md R21). -/
  noRecord : s.run ≠ .faulted → s.cause = none ∧ s.info = 0#9
  /-- A Faulted machine holds the record of a fault that happened at `pc` (60_exceptions.md R112, R113; the bytes and `pc` of
  a Faulted machine are decision D9, notes/assumptions/12.md). -/
  record : s.run = .faulted → s.faultRecordOk p.opc
  /-- A Halted machine stands at a HLT (44_control.md R106, 70_reset_and_hazards.md R142; `pc` after HLT is decision D8,
  notes/assumptions/13.md). -/
  atHlt : s.run = .halted → s.pc.toNat ≤ 253 ∧ decodeWindow p.opc s.windowBytes = some .hlt

/-- The invariant at the default parameters. -/
abbrev State.Inv (s : State) : Prop := s.InvAt Config.params

end Sys2Proof.Machine
end

