-- ==== Sys2Proof/Certificates/Slice0/Obligations.lean ====
section
/-!
DEFINITION. The statements for the provers. A docstring names the rule of spec/ a statement formalises, and the log entry of
notes/assumptions/ where a clause rests on a decision that the spec marks as its own or that is the model's.
-/
open Sys2Proof Sys2Proof.Machine

-- Encoding and decoding

/-- 30_encoding.md R50, R51, R52, R55, R56: under EVERY opcode map with nine distinct bytes, decoding an instruction's bytes,
whatever bytes follow them, gives the instruction back with every operand byte, also an invalid register operand. -/
def Obligations.DecodeEncodeRoundTrip : Prop :=
  ∀ opc : OpcodeMap, opc.Injective → ∀ (i : Instr) (rest : List Byte), 3 ≤ (encode opc i ++ rest).length →
    decodeBytes opc (encode opc i ++ rest) = .ok i

/-- 30_encoding.md R50, R56: bytes that decode begin with the encoding of what they decode to, so no opcode bit and no used
operand bit is ignored. -/
def Obligations.DecodedBytesBeginWithEncoding : Prop :=
  ∀ (opc : OpcodeMap) (bytes : List Byte) (i : Instr), decodeBytes opc bytes = .ok i →
    ∃ rest, bytes = encode opc i ++ rest

/-- 30_encoding.md R56, R57, R59: the decoder rejects, by name, exactly the opcode bytes outside the table. -/
def Obligations.UnknownOpcodeRejectedByName : Prop :=
  ∀ (opc : OpcodeMap) (opcode opa opb : Byte) (rest : List Byte),
    decodeBytes opc (opcode :: opa :: opb :: rest) = .error (.unknownInstruction opcode) ↔ ∀ m, opc m ≠ opcode

/-- 30_encoding.md R55: words written out from the table's bits. The opcode bytes are PRESUMED (log entry 1). -/
def Obligations.DefaultOpcodeWordsDecode : Prop :=
  decodeTableWord 24 0b11111111_00000011_10000010 = some (.ldi 3 255) ∧
  decodeTableWord 8 0b00000001 = some .hlt ∧
  decodeTableWord 16 0b00000101_01000111 = some (.prn 5) ∧
  decodeTableWord 24 0b00000010_00000001_10100010 = some (.mul 1 2) ∧
  decodeTableWord 24 0b00000110_00000100_10100111 = some (.cmp 4 6) ∧
  decodeTableWord 16 0b00000111_01000101 = some (.push 7) ∧
  decodeTableWord 16 0b00000000_01000110 = some (.pop 0) ∧
  decodeTableWord 16 0b00000001_01010000 = some (.call 1) ∧
  decodeTableWord 8 0b00010001 = some .ret ∧
  decodeTableWord 24 0b00000001_00000000_10100000 = none ∧
  decodeTableWord 8 0 = none

/-- 30_encoding.md R55, R57: the default opcode bytes (PRESUMED, log entry 1) are distinct, and 247 byte values are no
instruction. -/
def Obligations.DefaultOpcodesDistinct : Prop :=
  Config.opc.Injective ∧ ((List.range 256).filter (fun n => lookupOpcode Config.opc (BitVec.ofNat 8 n) == none)).length = 247

-- The engine

/-- 40_engine.md R65 to R69: a Running machine whose `pc` is inside the fetch window and whose three bytes there decode to an
instruction carries out exactly that instruction. The engine itself adds nothing, not even to `pc` (R68). -/
def Obligations.StepRunsDecodedInstruction : Prop :=
  ∀ (s : State) (i : Instr), s.run = .running → s.pc.toNat ≤ 253 →
    decodeWindow Config.opc ⟨s.mem.read s.pc.toNat, s.mem.read (s.pc.toNat + 1), s.mem.read (s.pc.toNat + 2)⟩ = some i →
    step s = exec i s

/-- 40_engine.md R66, 70_reset_and_hazards.md R135: at 254, 255 and 256 every step raises `OutOfBounds(256)`, whatever the
bytes there are, and changes nothing but the run state and the fault record (log entry 12 for the frozen rest, D9). -/
def Obligations.FetchPastWindowFaults : Prop :=
  ∀ s : State, s.run = .running → 254 ≤ s.pc.toNat → s.pc.toNat ≤ 256 →
    step s = .next { s with run := .faulted, cause := some .outOfBounds, info := 256#9 }

/-- 40_engine.md R67: dispatch compares the whole opcode byte, gives the row whose opcode it is, and raises
`UnknownInstruction(opcode)` if there is none. That a step then answers a NEXT state, Faulted with that fault recorded
(60_exceptions.md R112, R113), is log entry 12; the record itself is decision D10 (log entry 7). The exit status of that state:
ExitStatusOfTerminalStates. -/
def Obligations.DispatchLooksUpOpcode : Prop :=
  (∀ (w : FetchWindow) (m : Mnemonic), Config.opc m = w.opcode → dispatch w = .ok (m.instr w.opa w.opb)) ∧
  (∀ w : FetchWindow, ¬ InTable Config.opc w.opcode → dispatch w = .error ⟨.unknownInstruction, w.opcode.toNat⟩) ∧
  (∀ s : State, s.run = .running → s.pc.toNat ≤ 253 → ¬ InTable Config.opc (s.mem.read s.pc.toNat) →
    ∃ t, step s = .next t ∧ t.run = .faulted ∧ t.cause = some .unknownInstruction ∧ t.info = zext9 (s.mem.read s.pc.toNat))

/-- 40_engine.md R65, R71; 10_state.md R20: `Halted` and `Faulted` hold the whole state. That a step there ANSWERS the same
state is the model's form of 'no step is taken' (log entry 6). -/
def Obligations.TerminalStatesHold : Prop :=
  ∀ s : State, s.run ≠ .running → step s = .next s

/-- 60_exceptions.md R110, R116; 40_engine.md R71: nothing stops the machine other than `Halted` and `Faulted`, which are
states: every step from every state answers a next state, and so does every instruction. That faults are next states is log
entry 12. -/
def Obligations.EveryStepAnswersNext : Prop :=
  (∀ s : State, ∃ t, step s = .next t) ∧ (∀ (i : Instr) (s : State), ∃ t, exec i s = .next t)

/-- 60_exceptions.md R113 (decision D9, log entry 12): a step that faults changes `run`, `cause`, `info` and nothing else. -/
def Obligations.FaultsArePrecise : Prop :=
  ∀ s t : State, s.run = .running → step s = .next t → t.run = .faulted → ∃ c info, FaultedWith c info s t

/-- 60_exceptions.md R112, R113, R114: which exception a step takes, in the order of priority, and that a well-formed instruction
inside the fetch window takes none (R111). `RegisterIndex` is decision D6 (log entry 11); that every exception leaves the rest
of the state as it was is decision D9 (log entry 12); the record is decision D10 (log entry 7). -/
def Obligations.FaultPriorityOrder : Prop :=
  ∀ s t : State, s.run = .running → s.pc.toNat ≤ 256 → step s = .next t →
    (254 ≤ s.pc.toNat → FaultedWith .outOfBounds 256#9 s t) ∧
    (s.pc.toNat ≤ 253 → decodeWindow Config.opc s.windowBytes = none →
      FaultedWith .unknownInstruction (zext9 (s.mem.read s.pc.toNat)) s t) ∧
    (∀ i b, s.pc.toNat ≤ 253 → decodeWindow Config.opc s.windowBytes = some i → i.firstBadOperand = some b →
      FaultedWith .registerIndex (zext9 b) s t) ∧
    (∀ i, s.pc.toNat ≤ 253 → decodeWindow Config.opc s.windowBytes = some i → i.wellFormed = true →
      t.run ≠ .faulted ∧ t.cause = s.cause ∧ t.info = s.info)

/-- 40_engine.md R71, 70_reset_and_hazards.md R142: the transitions of the run state. `Halted` is reached only by HLT, `Running`
is kept only by a well-formed instruction other than HLT, and the two terminal states are never left by a step. That an
instruction with a bad register operand does not keep `Running` is decision D6 (30_encoding.md R53, log entry 11); that there is
a step from a terminal state, which answers it, is the model's form (log entry 6). -/
def Obligations.RunStateTransitions : Prop :=
  ∀ s t : State, step s = .next t →
    (s.run = .running → (t.run = .halted ↔ s.Executes .hlt)) ∧
    (s.run = .running → (t.run = .running ↔ ∃ i, s.Executes i ∧ i.wellFormed = true ∧ i ≠ .hlt)) ∧
    (s.run = .halted → t.run = .halted) ∧ (s.run = .faulted → t.run = .faulted)

-- The instructions: each completes, with this result and this frame

/-- 42_load_and_print.md R90: LDI with a valid register operand. -/
def Obligations.LdiLoadsImmediate : Prop :=
  ∀ (s : State) (reg value : Byte) (r : RegIndex), Names reg r →
    ∃ t, exec (.ldi reg value) s = .next t ∧ t.reg r = value ∧ SameRegsBut r s t ∧
      (s.pc.toNat ≤ 253 → t.pc.toNat = s.pc.toNat + 3) ∧
      t.fl = s.fl ∧ SameMemory s t ∧ SameStatus s t ∧ t.out = s.out

/-- 42_load_and_print.md R92: PRN with a valid register operand. -/
def Obligations.PrnEmitsRegister : Prop :=
  ∀ (s : State) (reg : Byte) (r : RegIndex), Names reg r →
    ∃ t, exec (.prn reg) s = .next t ∧ t.out = s.out ++ [s.reg r] ∧ SameRegs s t ∧
      (s.pc.toNat ≤ 253 → t.pc.toNat = s.pc.toNat + 2) ∧
      t.fl = s.fl ∧ SameMemory s t ∧ SameStatus s t

/-- 41_alu.md R86, R83: MUL with valid register operands, also when both name the same register. -/
def Obligations.MulMultipliesModulo256 : Prop :=
  ∀ (s : State) (regA regB : Byte) (a b : RegIndex), Names regA a → Names regB b →
    ∃ t, exec (.mul regA regB) s = .next t ∧ (t.reg a).toNat = ((s.reg a).toNat * (s.reg b).toNat) % 256 ∧
      SameRegsBut a s t ∧ (s.pc.toNat ≤ 253 → t.pc.toNat = s.pc.toNat + 3) ∧
      t.fl = s.fl ∧ SameMemory s t ∧ SameStatus s t ∧ t.out = s.out

/-- 41_alu.md R87, R84: CMP with valid register operands. The three flag values are named, not numbered (log entry 2); the
comparison is unsigned (decision D23, log entry 19). -/
def Obligations.CmpSetsFlags : Prop :=
  ∀ (s : State) (regA regB : Byte) (a b : RegIndex), Names regA a → Names regB b →
    ∃ t, exec (.cmp regA regB) s = .next t ∧
      ((s.reg a).toNat = (s.reg b).toNat → t.fl = Config.flags.equal) ∧
      ((s.reg a).toNat < (s.reg b).toNat → t.fl = Config.flags.less) ∧
      ((s.reg b).toNat < (s.reg a).toNat → t.fl = Config.flags.greater) ∧
      SameRegs s t ∧ (s.pc.toNat ≤ 253 → t.pc.toNat = s.pc.toNat + 3) ∧
      SameMemory s t ∧ SameStatus s t ∧ t.out = s.out

/-- 43_stack.md R95: PUSH with a valid register operand. The address is `SP` after the decrement, as the meaning computes it. The
byte stored is what `x[r]` reads after the decrement, `t.reg r`: for register 7 that is the decremented `SP`, which is decision
D16 (43_stack.md R97, log entry 14); for the others it is also what it read before. -/
def Obligations.PushStoresRegister : Prop :=
  ∀ (s : State) (reg : Byte) (r : RegIndex), Names reg r →
    ∃ t, exec (.push reg) s = .next t ∧
      t.sp = s.decSp.sp ∧ t.sp.toNat = (s.sp.toNat + 255) % 256 ∧ SameRegsBut Config.spIndex s t ∧
      t.mem.read s.decSp.sp.toNat = t.reg r ∧ SameMemoryBut s.decSp.sp.toNat s t ∧
      (s.pc.toNat ≤ 253 → t.pc.toNat = s.pc.toNat + 2) ∧
      t.fl = s.fl ∧ SameStatus s t ∧ t.out = s.out

/-- 43_stack.md R96: POP with a valid register operand. The popped byte is written first and `SP` incremented after; the clause for
register 7, which leaves the popped byte plus one, is decision D16 (43_stack.md R97, log entry 14). -/
def Obligations.PopLoadsRegister : Prop :=
  ∀ (s : State) (reg : Byte) (r : RegIndex), Names reg r →
    ∃ t, exec (.pop reg) s = .next t ∧
      (r ≠ Config.spIndex → t.reg r = s.mem.read s.sp.toNat ∧ t.sp.toNat = (s.sp.toNat + 1) % 256) ∧
      (r = Config.spIndex → t.sp.toNat = ((s.mem.read s.sp.toNat).toNat + 1) % 256) ∧
      (∀ k, k ≠ r → k ≠ Config.spIndex → t.reg k = s.reg k) ∧
      (s.pc.toNat ≤ 253 → t.pc.toNat = s.pc.toNat + 2) ∧
      t.fl = s.fl ∧ SameMemory s t ∧ SameStatus s t ∧ t.out = s.out

/-- 44_control.md R101: CALL with a valid register operand; wherever a CALL runs, `pc <= 253`, the byte stored is `pc + 2`. The
target is what `x[r]` reads after the decrement, `t.reg r`: for register 7 that is the decremented `SP`, which is decision D16
(44_control.md R102, log entry 14). The byte an `exec` outside the fetch window stores is left open (log entry 9). -/
def Obligations.CallLinksAndJumps : Prop :=
  ∀ (s : State) (reg : Byte) (r : RegIndex), Names reg r →
    ∃ t, exec (.call reg) s = .next t ∧
      t.sp = s.decSp.sp ∧ t.sp.toNat = (s.sp.toNat + 255) % 256 ∧ SameRegsBut Config.spIndex s t ∧
      (s.pc.toNat ≤ 253 → (t.mem.read s.decSp.sp.toNat).toNat = s.pc.toNat + 2) ∧
      SameMemoryBut s.decSp.sp.toNat s t ∧ t.pc.toNat = (t.reg r).toNat ∧
      t.fl = s.fl ∧ SameStatus s t ∧ t.out = s.out

/-- 44_control.md R104: RET, from every state. Its encoding is its opcode byte alone, the two candidate operand bytes are
ignored, and no RET at address 254 or 255 executes. -/
def Obligations.RetReturns : Prop :=
  (∀ opc : OpcodeMap, encode opc .ret = [opc .ret]) ∧
  (∀ opa opb : Byte, decodeWindow Config.opc ⟨Config.opc .ret, opa, opb⟩ = some .ret) ∧
  (∀ s : State, 254 ≤ s.pc.toNat → ¬ s.Executes .ret) ∧
  (∀ s : State, ∃ t, exec .ret s = .next t ∧
    t.pc.toNat = (s.mem.read s.sp.toNat).toNat ∧ t.sp.toNat = (s.sp.toNat + 1) % 256 ∧ SameRegsBut Config.spIndex s t ∧
    t.fl = s.fl ∧ SameMemory s t ∧ SameStatus s t ∧ t.out = s.out)

/-- 44_control.md R106: HLT, from every state: `run` becomes `Halted` and nothing else changes; `pc` stays (decision D8, log
entry 13). -/
def Obligations.HltHalts : Prop :=
  ∀ s : State, exec .hlt s = .next { s with run := .halted }

/-- 43_stack.md R97, 44_control.md R102 (decision D16, log entry 14): register 7 as the operand of PUSH, POP and CALL. -/
def Obligations.StackPointerAsOperand : Prop :=
  ∀ s : State,
    (∃ t, exec (.push 7#8) s = .next t ∧ t.sp.toNat = (s.sp.toNat + 255) % 256 ∧
      t.mem.read t.sp.toNat = t.sp ∧ SameMemoryBut t.sp.toNat s t) ∧
    (∃ t, exec (.pop 7#8) s = .next t ∧ t.sp.toNat = ((s.mem.read s.sp.toNat).toNat + 1) % 256) ∧
    (∃ t, exec (.call 7#8) s = .next t ∧ t.sp.toNat = (s.sp.toNat + 255) % 256 ∧ t.pc.toNat = t.sp.toNat ∧
      (s.pc.toNat ≤ 253 → (t.mem.read t.sp.toNat).toNat = s.pc.toNat + 2) ∧ SameMemoryBut t.sp.toNat s t)

/-- 30_encoding.md R53 (decision D6, log entry 11): a register operand byte of 8 to 255 in the instructions with one register
operand takes the `RegisterIndex` exception before anything changes. -/
def Obligations.BadRegisterOperandFaults : Prop :=
  ∀ (s : State) (reg value : Byte), 8 ≤ reg.toNat →
    ∀ i ∈ [Instr.ldi reg value, .prn reg, .push reg, .pop reg, .call reg],
      exec i s = .next { s with run := .faulted, cause := some .registerIndex, info := zext9 reg }

/-- 30_encoding.md R53 (decision D6, log entry 11): in MUL and CMP `regA` is checked first, then `regB`. -/
def Obligations.BadRegisterPairFaults : Prop :=
  ∀ (s : State) (regA regB : Byte),
    ∀ i ∈ [Instr.mul regA regB, .cmp regA regB],
      (8 ≤ regA.toNat →
        exec i s = .next { s with run := .faulted, cause := some .registerIndex, info := zext9 regA }) ∧
      (regA.toNat < 8 → 8 ≤ regB.toNat →
        exec i s = .next { s with run := .faulted, cause := some .registerIndex, info := zext9 regB })

-- The ALU and the memory primitives

/-- 41_alu.md R83: the operation MULTIPLY. -/
def Obligations.AluMultiplyKeepsLowByte : Prop :=
  ∀ (s : State) (a b : RegIndex),
    ((aluOp .multiply a b s).reg a).toNat = ((s.reg a).toNat * (s.reg b).toNat) % 256 ∧
    SameRegsBut a s (aluOp .multiply a b s) ∧ (aluOp .multiply a b s).fl = s.fl ∧
    (aluOp .multiply a b s).pc = s.pc ∧ SameMemory s (aluOp .multiply a b s) ∧
    SameStatus s (aluOp .multiply a b s) ∧ (aluOp .multiply a b s).out = s.out

/-- 41_alu.md R82: the operation ADD, which no instruction invokes (decision D15, log entry 20). -/
def Obligations.AluAddWraps : Prop :=
  ∀ (s : State) (a b : RegIndex),
    ((aluOp .add a b s).reg a).toNat = ((s.reg a).toNat + (s.reg b).toNat) % 256 ∧
    SameRegsBut a s (aluOp .add a b s) ∧ (aluOp .add a b s).fl = s.fl ∧
    (aluOp .add a b s).pc = s.pc ∧ SameMemory s (aluOp .add a b s) ∧
    SameStatus s (aluOp .add a b s) ∧ (aluOp .add a b s).out = s.out

/-- 41_alu.md R84, 10_state.md R17: under EVERY legal choice of the three flag values (log entry 2) a comparison sets exactly
one of the low three bits and clears the other five. -/
def Obligations.CompareSetsExactlyOneFlag : Prop :=
  ∀ (c : Config.FlagCodes), c.Legal → ∀ a b : Byte,
    (compareFlags c a b = c.equal ↔ a.toNat = b.toNat) ∧ (compareFlags c a b = c.less ↔ a.toNat < b.toNat) ∧
    (compareFlags c a b = c.greater ↔ b.toNat < a.toNat) ∧
    (compareFlags c a b = 1#8 ∨ compareFlags c a b = 2#8 ∨ compareFlags c a b = 4#8)

/-- 41_alu.md R85 (select codes: decision D14, log entry 20): the ALU's port raises `UnsupportedAluOp` for exactly the one
select that is no tag, the three others give their operation, and no step records that cause. -/
def Obligations.UnsupportedAluTagRaises : Prop :=
  (∀ (a b : RegIndex) (s : State), aluPort 3#2 a b s = .error ⟨.unsupportedAluOp, 3⟩) ∧
  (∀ (tag : AluTag) (a b : RegIndex) (s : State), aluPort tag.select a b s = .ok (aluOp tag a b s)) ∧
  (∀ s t : State, s.run = .running → step s = .next t → t.cause = some .unsupportedAluOp →
    s.cause = some .unsupportedAluOp)

/-- 20_memory.md R32: the read primitive (first clause). The other two clauses are inferences that the spec marks as derived: a
read through `SP` never raises (10_state.md R13), and 256 is the only address that can be out of bounds, at a fetch past the
window (20_memory.md R32, from 10_state.md R13 and R16; 40_engine.md R66). -/
def Obligations.MemReadChecksBounds : Prop :=
  (∀ (a : Nat) (s : State), (256 ≤ a → memRead a s = .error ⟨.outOfBounds, a⟩) ∧
    (a < 256 → memRead a s = .ok (s.mem.read a))) ∧
  (∀ s : State, ∃ v, memRead s.sp.toNat s = .ok v) ∧
  (∀ (s : State) (e : Exc), s.pc.toNat ≤ 256 → fetch s = .error e → e = ⟨.outOfBounds, 256⟩)

/-- 20_memory.md R33: the write primitive (first clause). That no write through `SP` is out of bounds is an inference that the
spec marks as derived (20_memory.md R33, from R31 and 10_state.md R13). -/
def Obligations.MemWriteChecksBounds : Prop :=
  (∀ (a : Nat) (v : Byte) (s : State),
    (256 ≤ a → memWrite a v s = .error ⟨.outOfBounds, a⟩) ∧
    (a < 256 → ∃ t, memWrite a v s = .ok t ∧ t.mem.read a = v ∧ SameMemoryBut a s t ∧ SameRegs s t ∧
      t.pc = s.pc ∧ t.fl = s.fl ∧ SameStatus s t ∧ t.out = s.out)) ∧
  (∀ (v : Byte) (s : State), ∃ t, memWrite s.sp.toNat v s = .ok t)

/-- 10_state.md R13: the stack pointer wraps at both ends of its byte, and its update touches nothing else. -/
def Obligations.StackPointerWraps : Prop :=
  ∀ s : State,
    (s.sp = 0#8 → s.decSp.sp = 255#8) ∧ (s.sp = 255#8 → s.incSp.sp = 0#8) ∧
    (s.sp ≠ 0#8 → s.decSp.sp.toNat = s.sp.toNat - 1) ∧ (s.sp ≠ 255#8 → s.incSp.sp.toNat = s.sp.toNat + 1) ∧
    SameRegsBut Config.spIndex s s.decSp ∧ SameRegsBut Config.spIndex s s.incSp ∧
    s.decSp.mem = s.mem ∧ s.incSp.mem = s.mem ∧ s.decSp.pc = s.pc ∧ s.incSp.pc = s.pc

-- Rules over all instructions

/-- 10_state.md R11: an instruction writes no register but those its row of the table names. -/
def Obligations.RegisterFrame : Prop :=
  ∀ (i : Instr) (s t : State), exec i s = .next t → ∀ k, ¬ WritesReg i k → t.reg k = s.reg k

/-- 20_memory.md R31: no cell changes but the one PUSH or CALL stores to, at the address the meaning computes. -/
def Obligations.MemoryFrame : Prop :=
  ∀ (i : Instr) (s t : State), exec i s = .next t → ∀ a, storeAddress i s ≠ some a → t.mem.read a = s.mem.read a

/-- 10_state.md R18: no instruction but CMP writes `FL`, and a CMP that completes leaves it at one of the three values, never at
0. That an ill-formed CMP keeps `FL` rests on D6 (log entry 11). -/
def Obligations.FlagsWrittenOnlyByCmp : Prop :=
  ∀ (i : Instr) (s t : State), exec i s = .next t →
    ((∀ a b, i ≠ .cmp a b) → t.fl = s.fl) ∧
    (∀ a b, i = .cmp a b → i.wellFormed = true → t.fl ≠ 0#8 ∧ flagsLegal t.fl) ∧
    (i.wellFormed = false → t.fl = s.fl)

/-- 10_state.md R22: `out` grows by exactly the register's value, at its end, when PRN completes, no other instruction changes
it, and none reads it. (A PRN with a bad operand: BadRegisterOperandFaults.) -/
def Obligations.OutputWrittenOnlyByPrn : Prop :=
  ∀ (i : Instr) (s t : State), exec i s = .next t →
    (∀ reg r, i = .prn reg → Names reg r → t.out = s.out ++ [s.reg r]) ∧
    ((∀ reg, i ≠ .prn reg) → t.out = s.out) ∧
    (∀ o : List Byte, exec i { s with out := o } = .next { t with out := o ++ emittedSince s t })

/-- 10_state.md R15, R16: how each well-formed instruction leaves `pc` (HLT: decision D8, log entry 13; the target of CALL is the
register as read after the decrement, which differs for register 7 only: decision D16, log entry 14), and that an instruction
that faults leaves it alone (decision D9, log entry 12). -/
def Obligations.PcAfterEachInstruction : Prop :=
  ∀ (i : Instr) (s t : State), s.pc.toNat ≤ 253 → exec i s = .next t →
    (i.wellFormed = false → t.pc = s.pc) ∧
    (i.wellFormed = true →
      match i with
      | .ldi _ _ | .mul _ _ | .cmp _ _ => t.pc.toNat = s.pc.toNat + 3
      | .prn _ | .push _ | .pop _ => t.pc.toNat = s.pc.toNat + 2
      | .call reg => ∀ r, Names reg r → t.pc.toNat = (s.decSp.reg r).toNat
      | .ret => t.pc.toNat = (s.mem.read s.sp.toNat).toNat
      | .hlt => t.pc = s.pc)

/-- 10_state.md R18, R19, R22: no instruction reads the flags, the fault record or the output. Two states that differ only in
those step to states that agree in the registers, `pc`, memory and run state. -/
def Obligations.StatusNeverSteersExecution : Prop :=
  ∀ (s t : State) (fl : Byte) (cause : Option Cause) (info : Word9) (out : List Byte), step s = .next t →
    ∃ u, step { s with fl := fl, cause := cause, info := info, out := out } = .next u ∧
      u.x = t.x ∧ u.pc = t.pc ∧ u.mem = t.mem ∧ u.run = t.run

/-- 20_memory.md R44: a byte that PUSH (43_stack.md R95) or CALL (44_control.md R101) stored is what the very next fetch reads,
wherever in the window it lies. What PUSH of register 7 stores, the decremented `SP`, is decision D16 (43_stack.md R97, log
entry 14). -/
def Obligations.StoredByteIsFetchedNext : Prop :=
  ∀ (s t : State) (i : Instr) (v : Byte) (w : FetchWindow), s.Executes i → step s = .next t → fetch t = .ok w →
    ((∃ reg r, i = .push reg ∧ Names reg r ∧ v = t.reg r) ∨
      (∃ reg r, i = .call reg ∧ Names reg r ∧ v.toNat = s.pc.toNat + 2)) →
    (t.sp.toNat = t.pc.toNat → w.opcode = v) ∧ (t.sp.toNat = t.pc.toNat + 1 → w.opa = v) ∧
    (t.sp.toNat = t.pc.toNat + 2 → w.opb = v)

-- Invariants

/-- 10_state.md R14, R16, R18, R21; 20_memory.md R30; 60_exceptions.md R112, R113; 44_control.md R106: every step keeps the
invariant: canonical memory of 256 cells, `pc` at most 256, a legal flags byte, no fault record outside `Faulted`, inside it a
record that says what happened at `pc`, and in `Halted` a HLT at `pc`. That a Halted machine stands at its HLT is decision D8
(log entry 13); that 0 is a legal flags byte is decision D22 (log entry 4); that a Faulted one still has the `pc`
and the bytes of the faulting step is decision D9 (log entry 12); `RegisterIndex` is decision D6 (log entry 11), the record decision D10 (log entry 7); that a terminal state answers itself is
log entry 6. -/
def Obligations.StepKeepsInvariant : Prop :=
  ∀ s t : State, s.Inv → step s = .next t → t.Inv

/-- The state after reset (70_reset_and_hazards.md R130) meets the invariant: canonical memory, `pc` at most 256, a legal flags
byte, which rests on FL_RESET = 0 (log entry 4), and, as it is not Faulted, no fault record (decision D10, log entry 7). -/
def Obligations.ResetMeetsInvariant : Prop := State.reset.Inv

/-- 40_engine.md R70, R71: from a state that meets the invariant a run of any length never stops answering, and meets it at its
end. That a terminal state answers itself is log entry 6. What the invariant says of a Halted machine (44_control.md R106) is
decision D8 (log entry 13); what it says of a Faulted one (60_exceptions.md R112, R113) rests on decisions D9 (log entry 12), D6
(log entry 11) and D10 (log entry 7). -/
def Obligations.RunsKeepInvariant : Prop :=
  ∀ (n : Nat) (s : State), s.Inv → ∃ t : State, core.run n s = .next t ∧ t.Inv

/-- 10_state.md R20, R22; 40_engine.md R71: along a run of any length the output only grows at its end, and from a terminal
state the run leaves everything as it is (log entry 6). -/
def Obligations.RunsOnlyExtendOutput : Prop :=
  ∀ (n : Nat) (s t : State), core.run n s = .next t →
    (∃ more, t.out = s.out ++ more) ∧ (s.run ≠ .running → t = s)

-- Reset, load, the end of a run

/-- 10_state.md R12, R25: what the source gives for reset: `SP = 255`, `pc = 0`, `Running`, no output; and the spec's own fault
record and zeros (decisions D3, D4, D5, D10; log entries 3, 4, 5, 7). A reset in any state gives exactly this. -/
def Obligations.ResetValues : Prop :=
  ∀ s : State, applyReset s = State.reset ∧
    State.reset.sp = 255#8 ∧ State.reset.pc = 0#9 ∧ State.reset.run = .running ∧ State.reset.out = [] ∧
    State.reset.cause = none ∧ State.reset.info = 0#9 ∧
    (∀ r : RegIndex, r ≠ Config.spIndex → State.reset.reg r = 0#8) ∧ State.reset.fl = 0#8 ∧
    (∀ a, State.reset.mem.read a = 0#8)

/-- 70_reset_and_hazards.md R132 (refusal: decision D12, log entry 15): an image of at most 256 bytes is copied to address 0 on
and touches nothing else; any other image is refused. -/
def Obligations.LoadCopiesImage : Prop :=
  ∀ (img : List Nat) (s : State),
    ((256 < img.length ∨ ∃ v ∈ img, 256 ≤ v) → load img s = none) ∧
    (img.length ≤ 256 → (∀ v ∈ img, v < 256) →
      ∃ t, load img s = some t ∧
        (∀ (a : Nat) (h : a < img.length), (t.mem.read a).toNat = img[a]) ∧
        (∀ a, img.length ≤ a → t.mem.read a = s.mem.read a) ∧
        t = { s with mem := t.mem })

/-- 70_reset_and_hazards.md R131 to R133: the state in which the first step of a run begins meets the invariant and is Running
at `pc = 0`, whatever image was loaded. The legal flags byte rests on FL_RESET = 0 (log entry 4), the empty record is decision
D10 (log entry 7), and that the first step begins right after the load is log entry 16. -/
def Obligations.BootedMachineMeetsInvariant : Prop :=
  ∀ (img : List Nat) (s : State), boot img = some s → s.Inv ∧ s.run = .running ∧ s.pc = 0#9 ∧ s.sp = 255#8 ∧ s.out = []

/-- 10_state.md R27: exit status 0 when Halted, a non-zero one when Faulted, none while Running. The number is any `EXIT_FAULT`
(decision D10, log entry 7). -/
def Obligations.ExitStatusOfTerminalStates : Prop :=
  ∀ (s : State) (exitFault : Nat), exitFault ≠ 0 →
    (s.run = .halted → exitStatus s exitFault = some 0) ∧
    (s.run = .faulted → ∃ n, exitStatus s exitFault = some n ∧ n ≠ 0) ∧
    (s.run = .running → exitStatus s exitFault = none)

-- The source's laws

/-- 42_load_and_print.md R93: LDI(r, v) then PRN(r) emits exactly `v`. The bound on `pc` is the spec's addition to
the source's law, which R93 marks as derived. -/
def Obligations.LdiThenPrnEmitsValue : Prop :=
  ∀ (s : State) (r : RegIndex) (v : Byte), s.run = .running → s.pc.toNat ≤ 250 →
    s.mem.read s.pc.toNat = Config.opc .ldi → Names (s.mem.read (s.pc.toNat + 1)) r → s.mem.read (s.pc.toNat + 2) = v →
    s.mem.read (s.pc.toNat + 3) = Config.opc .prn → Names (s.mem.read (s.pc.toNat + 4)) r →
    ∃ t u, step s = .next t ∧ step t = .next u ∧ u.out = s.out ++ [v] ∧ u.reg r = v ∧ u.pc.toNat = s.pc.toNat + 5

/-- 43_stack.md R98: the round trip of PUSH then POP, for registers 0 to 6 and a push that does not land on the POP.
These side conditions are the spec's additions to the source's law, which R98 marks as derived. -/
def Obligations.PushThenPopRoundTrip : Prop :=
  ∀ (s : State) (r q : RegIndex), s.run = .running → s.pc.toNat ≤ 251 →
    r ≠ Config.spIndex → q ≠ Config.spIndex →
    s.mem.read s.pc.toNat = Config.opc .push → Names (s.mem.read (s.pc.toNat + 1)) r →
    s.mem.read (s.pc.toNat + 2) = Config.opc .pop → Names (s.mem.read (s.pc.toNat + 3)) q →
    s.decSp.sp.toNat ≠ s.pc.toNat + 2 → s.decSp.sp.toNat ≠ s.pc.toNat + 3 →
    ∃ t u, step s = .next t ∧ step t = .next u ∧
      u.reg q = s.reg r ∧ u.sp = s.sp ∧ u.pc.toNat = s.pc.toNat + 4 ∧
      u.mem.read s.decSp.sp.toNat = s.reg r ∧
      SameRegsBut q s u ∧ SameMemoryBut s.decSp.sp.toNat s u ∧ u.fl = s.fl ∧ SameStatus s u ∧ u.out = s.out

/-- 44_control.md R105: CALL then RET comes back to the instruction after the CALL with `SP` as it was. The side
conditions are the spec's additions to the source's law, which R105 marks as derived. -/
def Obligations.CallThenRetReturns : Prop :=
  ∀ (s : State) (r : RegIndex), s.run = .running → s.pc.toNat ≤ 253 → r ≠ Config.spIndex →
    s.mem.read s.pc.toNat = Config.opc .call → Names (s.mem.read (s.pc.toNat + 1)) r →
    (s.reg r).toNat ≤ 253 → s.mem.read (s.reg r).toNat = Config.opc .ret →
    s.decSp.sp.toNat ≠ (s.reg r).toNat →
    ∃ t u, step s = .next t ∧ step t = .next u ∧
      u.pc.toNat = s.pc.toNat + 2 ∧ u.sp = s.sp ∧ (u.mem.read s.decSp.sp.toNat).toNat = s.pc.toNat + 2 ∧
      SameRegs s u ∧ SameMemoryBut s.decSp.sp.toNat s u ∧ u.fl = s.fl ∧ SameStatus s u ∧ u.out = s.out

-- The open parameters: nothing above depends on a default but through `Config.params`

/-- 00_scope.md R4, 92_eei_decisions.md section 2: `exec`, `step`, reset and load are the parametric machine at the defaults, and
the defaults are legal. The defaults are log entries 1 to 5 and 7. -/
def Obligations.DefaultsInstantiateParametricMachine : Prop :=
  (∀ (i : Instr) (s : State), exec i s = execAt Config.params i s) ∧ (∀ s : State, step s = stepAt Config.params s) ∧
  (∀ s : State, applyReset s = State.resetAt Config.params) ∧ (∀ img : List Nat, boot img = bootAt Config.params img) ∧
  Config.params.Legal

/-- 40_engine.md R66 to R68, 00_scope.md R4: under EVERY parameters a Running machine inside the fetch window carries out the
instruction that the bytes decode to under their opcode map, and takes `UnknownInstruction` of any other opcode byte (log
entry 12 for the frozen rest, decision D9; log entry 7 for the record, D10). -/
def Obligations.StepUnderAnyOpcodeMap : Prop :=
  ∀ (p : Config.Params) (s : State), s.run = .running → s.pc.toNat ≤ 253 →
    (∀ i : Instr, decodeWindow p.opc s.windowBytes = some i → stepAt p s = execAt p i s) ∧
    (¬ InTable p.opc (s.mem.read s.pc.toNat) →
      stepAt p s =
        .next { s with run := .faulted, cause := some .unknownInstruction, info := zext9 (s.mem.read s.pc.toNat) })

/-- 00_scope.md R4: no instruction but CMP depends on a parameter once it is dispatched. -/
def Obligations.OnlyCmpReadsParameters : Prop :=
  ∀ (p : Config.Params) (i : Instr) (s : State), (∀ a b, i ≠ .cmp a b) → execAt p i s = exec i s

/-- 41_alu.md R87, R84; 10_state.md R17: CMP with valid register operands under EVERY parameters, and the one bit it sets under
legal ones. The comparison is unsigned (decision D23, log entry 19). -/
def Obligations.CmpUnderAnyFlagValues : Prop :=
  ∀ (p : Config.Params) (s : State) (regA regB : Byte) (a b : RegIndex), Names regA a → Names regB b →
    ∃ t, execAt p (.cmp regA regB) s = .next t ∧
      ((s.reg a).toNat = (s.reg b).toNat → t.fl = p.flags.equal) ∧
      ((s.reg a).toNat < (s.reg b).toNat → t.fl = p.flags.less) ∧
      ((s.reg b).toNat < (s.reg a).toNat → t.fl = p.flags.greater) ∧
      (p.Legal → t.fl = 1#8 ∨ t.fl = 2#8 ∨ t.fl = 4#8) ∧
      SameRegs s t ∧ (s.pc.toNat ≤ 253 → t.pc.toNat = s.pc.toNat + 3) ∧
      SameMemory s t ∧ SameStatus s t ∧ t.out = s.out

/-- The invariant of StepKeepsInvariant under EVERY parameters (00_scope.md R4): from a state that meets it the parametric step
answers a next state, which meets it. It rests on the log entries named there: 4, 6, 7, 11, 12, 13. -/
def Obligations.InvariantUnderAnyParameters : Prop :=
  ∀ (p : Config.Params) (s : State), s.InvAt p → ∃ t, stepAt p s = .next t ∧ t.InvAt p

/-- 10_state.md R12, R25; 70_reset_and_hazards.md R130: what a reset leaves under EVERY parameters. The empty fault record is
decision D10 (log entry 7). -/
def Obligations.ResetUnderAnyParameters : Prop :=
  ∀ (p : Config.Params) (s : State),
    (applyReset s p).sp = 255#8 ∧ (applyReset s p).pc = 0#9 ∧ (applyReset s p).run = .running ∧ (applyReset s p).out = [] ∧
    (applyReset s p).cause = none ∧ (applyReset s p).info = 0#9 ∧
    (∀ r : RegIndex, r ≠ Config.spIndex → (applyReset s p).reg r = p.regReset) ∧ (applyReset s p).fl = p.flReset ∧
    (∀ a, a < 256 → (applyReset s p).mem.read a = p.memFill)

/-- 70_reset_and_hazards.md R131 to R133, 00_scope.md R4: under all legal parameters the state in which the first step of a run
begins meets the invariant, the image stands at address 0 on, and every cell it does not cover holds `MEM_FILL`. The fault record
is decision D10 (log entry 7); that the first step begins right after the load is log entry 16. -/
def Obligations.BootUnderAnyParameters : Prop :=
  ∀ (p : Config.Params) (img : List Nat) (s : State), p.Legal → bootAt p img = some s →
    s.InvAt p ∧ s.run = .running ∧ s.pc = 0#9 ∧ s.sp = 255#8 ∧ s.out = [] ∧
    (∀ (a : Nat) (h : a < img.length), (s.mem.read a).toNat = img[a]) ∧
    (∀ a, img.length ≤ a → a < 256 → s.mem.read a = p.memFill)
end

