-- ==== Sys2Proof/Laws/Encoding.lean ====
section
/-!
SUPPORT. The dispatch table's lookup, once, for any opcode map.
-/
namespace Sys2Proof

theorem Mnemonic.mem_all (m : Mnemonic) : m ∈ Mnemonic.all := by cases m <;> decide

/-- A row that the lookup finds has that opcode byte. -/
theorem lookupOpcode_some {opc : OpcodeMap} {b : Byte} {m : Mnemonic} (h : lookupOpcode opc b = some m) : opc m = b := by
  simpa using List.find?_some h

/-- The lookup finds nothing exactly when no row has that opcode byte. -/
theorem lookupOpcode_none {opc : OpcodeMap} {b : Byte} : lookupOpcode opc b = none ↔ ∀ m, opc m ≠ b := by
  simp only [lookupOpcode, List.find?_eq_none, beq_iff_eq]
  exact ⟨fun h m => h m m.mem_all, fun h m _ => h m⟩

/-- Under an injective map the lookup of a row's opcode byte finds that row. -/
theorem lookupOpcode_opc {opc : OpcodeMap} (hi : opc.Injective) (m : Mnemonic) : lookupOpcode opc (opc m) = some m := by
  cases h : lookupOpcode opc (opc m) with
  | none => exact absurd rfl (lookupOpcode_none.1 h m)
  | some n => rw [hi n m (lookupOpcode_some h)]

/-- Under an injective map an opcode byte of the table decodes to its row, with the candidate operands as they stand. -/
theorem decodeWindow_opc {opc : OpcodeMap} (hi : opc.Injective) (m : Mnemonic) (opa opb : Byte) :
    decodeWindow opc ⟨opc m, opa, opb⟩ = some (m.instr opa opb) := by
  simp [decodeWindow, lookupOpcode_opc hi]

theorem decodeWindow_none {opc : OpcodeMap} {w : FetchWindow} :
    decodeWindow opc w = none ↔ ∀ m, opc m ≠ w.opcode := by
  simp [decodeWindow, lookupOpcode_none]

/-- An instruction is well formed exactly when it has no bad operand to report. -/
theorem Instr.wellFormed_iff (i : Instr) : i.wellFormed = true ↔ i.firstBadOperand = none := by
  simp [Instr.wellFormed, Instr.firstBadOperand]

@[simp] theorem Mnemonic.instr_mnemonic (m : Mnemonic) (a b : Byte) : (m.instr a b).mnemonic = m := by cases m <;> rfl

end Sys2Proof
end

