-- ==== Sys2Proof/Laws/Memory.lean ====
section
/-!
SUPPORT. The laws of memory: a read after a write, the canonical form under every operation, and that two memories in
canonical form that read the same are the same data.
-/
namespace Sys2Proof.Machine

theorem lookup_of_not_listed {a : Nat} {cells : List Host.Cell} (h : ∀ c ∈ cells, c.1 ≠ a) :
    Memory.lookup a cells = Memory.blank := by
  induction cells with
  | nil => rfl
  | cons c rest ih =>
    simp only [List.mem_cons, forall_eq_or_imp] at h
    simp [Memory.lookup, h.1, ih h.2]

theorem mem_eraseCell {a : Nat} {cells : List Host.Cell} {c : Host.Cell} :
    c ∈ Memory.eraseCell a cells ↔ c ∈ cells ∧ c.1 ≠ a := by
  simp [Memory.eraseCell]

theorem lookup_eraseCell_self (a : Nat) (cells : List Host.Cell) :
    Memory.lookup a (Memory.eraseCell a cells) = Memory.blank :=
  lookup_of_not_listed fun _ hc => (mem_eraseCell.1 hc).2

theorem lookup_eraseCell_ne {a b : Nat} (h : b ≠ a) (cells : List Host.Cell) :
    Memory.lookup b (Memory.eraseCell a cells) = Memory.lookup b cells := by
  induction cells with
  | nil => rfl
  | cons c rest ih =>
    rw [Memory.eraseCell] at ih ⊢
    by_cases hc : c.1 = a
    · have hb : c.1 ≠ b := fun e => h (e.symm.trans hc)
      simpa [List.filter, hc, Memory.lookup, hb, Ne.symm h] using ih
    · simp [List.filter, hc, Memory.lookup, ih]

theorem lookup_insertCell_self {a : Nat} {cells : List Host.Cell} (v : Byte) (h : ∀ c ∈ cells, c.1 ≠ a) :
    Memory.lookup a (Memory.insertCell a v cells) = v := by
  induction cells with
  | nil => simp [Memory.insertCell, Memory.lookup]
  | cons c rest ih =>
    simp only [List.mem_cons, forall_eq_or_imp] at h
    unfold Memory.insertCell
    split <;> simp [Memory.lookup, h.1, ih h.2]

theorem lookup_insertCell_ne {a b : Nat} (h : b ≠ a) (v : Byte) (cells : List Host.Cell) :
    Memory.lookup b (Memory.insertCell a v cells) = Memory.lookup b cells := by
  induction cells with
  | nil => simp [Memory.insertCell, Memory.lookup, Ne.symm h]
  | cons c rest ih =>
    unfold Memory.insertCell
    split <;> simp [Memory.lookup, Ne.symm h, ih]

theorem mem_insertCell {a : Nat} {v : Byte} {cells : List Host.Cell} {c : Host.Cell} :
    c ∈ Memory.insertCell a v cells ↔ c = (a, v) ∨ c ∈ cells := by
  induction cells with
  | nil => simp [Memory.insertCell]
  | cons d rest ih =>
    unfold Memory.insertCell
    split
    · simp
    · simp only [List.mem_cons, ih]
      tauto

@[simp] theorem read_write_same (m : Memory) (a : Nat) (v : Byte) : (m.write a v).read a = v := by
  unfold Memory.write Memory.read
  split
  · next h => rw [lookup_eraseCell_self, h]
  · exact lookup_insertCell_self v fun c hc => (mem_eraseCell.1 hc).2

theorem read_write_ne (m : Memory) {a b : Nat} (h : b ≠ a) (v : Byte) : (m.write a v).read b = m.read b := by
  unfold Memory.write Memory.read
  split
  · exact lookup_eraseCell_ne h _
  · rw [lookup_insertCell_ne h, lookup_eraseCell_ne h]

theorem read_write (m : Memory) (a b : Nat) (v : Byte) :
    (m.write a v).read b = if b = a then v else m.read b := by
  split
  · next h => rw [h, read_write_same]
  · next h => exact read_write_ne m h v

theorem wf_empty : Memory.wf ⟨[]⟩ := ⟨List.Pairwise.nil, by simp⟩

theorem insertCell_pairwise {a : Nat} {v : Byte} {cells : List Host.Cell}
    (hp : cells.Pairwise (fun c d => c.1 < d.1)) (hn : ∀ c ∈ cells, c.1 ≠ a) :
    (Memory.insertCell a v cells).Pairwise (fun c d => c.1 < d.1) := by
  induction cells with
  | nil => simp [Memory.insertCell]
  | cons c rest ih =>
    rw [List.pairwise_cons] at hp
    simp only [List.mem_cons, forall_eq_or_imp] at hn
    unfold Memory.insertCell
    split
    · next h =>
      refine List.pairwise_cons.2 ⟨fun d hd => ?_, List.pairwise_cons.2 hp⟩
      rcases List.mem_cons.1 hd with rfl | hd
      · exact h
      · exact h.trans (hp.1 d hd)
    · next h =>
      refine List.pairwise_cons.2 ⟨fun d hd => ?_, ih hp.2 hn.2⟩
      rcases mem_insertCell.1 hd with rfl | hd
      · show c.1 < a
        have := hn.1
        omega
      · exact hp.1 d hd

/-- A write to a cell keeps the canonical form. -/
theorem wf_write {m : Memory} (h : m.wf) {a : Nat} (ha : a < Config.memSize) (v : Byte) : (m.write a v).wf := by
  have he : (Memory.eraseCell a m.cells).Pairwise (fun c d => c.1 < d.1) := h.1.filter _
  unfold Memory.write
  by_cases hv : v = Memory.blank
  · simp only [hv, if_true]
    exact ⟨he, fun c hc => h.2 c (mem_eraseCell.1 hc).1⟩
  · simp only [hv, if_false]
    refine ⟨insertCell_pairwise he fun c hc => (mem_eraseCell.1 hc).2, fun c hc => ?_⟩
    rcases mem_insertCell.1 hc with rfl | hc
    · exact ⟨ha, hv⟩
    · exact h.2 c (mem_eraseCell.1 hc).1

/-- A copy of bytes that stays inside the memory keeps the canonical form. -/
theorem wf_writeFrom {m : Memory} (h : m.wf) {bytes : List Byte} {a : Nat} (ha : a + bytes.length ≤ Config.memSize) :
    (m.writeFrom a bytes).wf := by
  induction bytes generalizing m a with
  | nil => exact h
  | cons v rest ih =>
    rw [List.length_cons] at ha
    exact ih (wf_write h (by omega) v) (by omega)

theorem read_writeFrom (m : Memory) (bytes : List Byte) (a b : Nat) :
    (m.writeFrom a bytes).read b = if h : a ≤ b ∧ b - a < bytes.length then bytes[b - a]'h.2 else m.read b := by
  induction bytes generalizing m a with
  | nil => simp [Memory.writeFrom]
  | cons v rest ih =>
    rw [Memory.writeFrom, ih, read_write]
    by_cases hab : a = b
    · subst hab; simp
    · by_cases hlt : a ≤ b
      · obtain ⟨k, rfl⟩ : ∃ k, b = a + 1 + k := ⟨b - (a + 1), by omega⟩
        have e1 : a + 1 + k - (a + 1) = k := by omega
        have e2 : a + 1 + k - a = k + 1 := by omega
        simp [e1, e2, hlt, show ¬ a + 1 + k = a by omega]
      · simp [hlt, show ¬ a + 1 ≤ b by omega, Ne.symm hab]

/-- Filled memory is in canonical form. -/
theorem wf_filled (fill : Byte) : (Memory.filled fill).wf := by
  unfold Memory.filled
  split
  · exact wf_empty
  · exact wf_writeFrom wf_empty (by rw [List.length_replicate]; omega)

/-- Every cell of filled memory holds the fill. -/
theorem read_filled (fill : Byte) {a : Nat} (h : a < 256) : (Memory.filled fill).read a = fill := by
  unfold Memory.filled
  split
  · next e => rw [e]; rfl
  · rw [read_writeFrom, dif_pos ⟨Nat.zero_le a, by rw [List.length_replicate]; exact h⟩, List.getElem_replicate]

theorem cells_eq_of_lookup_eq {c d : List Host.Cell} (hc : (⟨c⟩ : Memory).wf) (hd : (⟨d⟩ : Memory).wf)
    (h : ∀ a, Memory.lookup a c = Memory.lookup a d) : c = d := by
  induction c generalizing d with
  | nil =>
    cases d with
    | nil => rfl
    | cons e rest =>
      have := h e.1
      simp only [Memory.lookup, if_true] at this
      exact absurd this.symm (hd.2 e (by simp)).2
  | cons e rest ih =>
    cases d with
    | nil =>
      have := h e.1
      simp only [Memory.lookup, if_true] at this
      exact absurd this (hc.2 e (by simp)).2
    | cons f more =>
      have hcp := List.pairwise_cons.1 hc.1
      have hdp := List.pairwise_cons.1 hd.1
      have hcr : (⟨rest⟩ : Memory).wf := ⟨hcp.2, fun c hm => hc.2 c (List.mem_cons_of_mem _ hm)⟩
      have hdr : (⟨more⟩ : Memory).wf := ⟨hdp.2, fun c hm => hd.2 c (List.mem_cons_of_mem _ hm)⟩
      have absent : ∀ {k : Nat} {l : List Host.Cell}, (∀ x ∈ l, k < x.1) → Memory.lookup k l = Memory.blank :=
        fun hl => lookup_of_not_listed fun x hx => Nat.ne_of_gt (hl x hx)
      have hkey : e.1 = f.1 := by
        rcases Nat.lt_trichotomy e.1 f.1 with hlt | heq | hgt
        · have := h e.1
          rw [absent (l := f :: more) (by
            intro x hx
            rcases List.mem_cons.1 hx with rfl | hx
            · exact hlt
            · exact hlt.trans (hdp.1 x hx))] at this
          simp only [Memory.lookup, if_true] at this
          exact absurd this (hc.2 e (by simp)).2
        · exact heq
        · have := h f.1
          rw [absent (l := e :: rest) (by
            intro x hx
            rcases List.mem_cons.1 hx with rfl | hx
            · exact hgt
            · exact hgt.trans (hcp.1 x hx))] at this
          simp only [Memory.lookup, if_true] at this
          exact absurd this.symm (hd.2 f (by simp)).2
      have hval : e.2 = f.2 := by
        have := h e.1
        simpa only [Memory.lookup, if_true, ← hkey] using this
      have htail : rest = more := by
        refine ih hcr hdr fun a => ?_
        by_cases ha : e.1 = a
        · rw [← ha, absent hcp.1, hkey, absent hdp.1]
        · have := h a
          simpa only [Memory.lookup, ← hkey, if_neg ha] using this
      rw [Prod.ext hkey hval, htail]

/-- Two memories in canonical form that read the same everywhere are equal. -/
theorem Memory.eq_of_read_eq {m n : Memory} (hm : m.wf) (hn : n.wf) (h : ∀ a, m.read a = n.read a) : m = n := by
  cases m; cases n
  exact congrArg _ (cells_eq_of_lookup_eq hm hn h)

end Sys2Proof.Machine
end

