-- ==== Sys2Proof/Laws/State.lean ====
section
/-!
SUPPORT. One lemma per field per update of the state, and what a register reads after each update.
-/
namespace Sys2Proof.Machine

section Fields

@[simp] theorem setReg_pc (s : State) (r : RegIndex) (v : Byte) : (s.setReg r v).pc = s.pc := rfl
@[simp] theorem setReg_fl (s : State) (r : RegIndex) (v : Byte) : (s.setReg r v).fl = s.fl := rfl
@[simp] theorem setReg_mem (s : State) (r : RegIndex) (v : Byte) : (s.setReg r v).mem = s.mem := rfl
@[simp] theorem setReg_run (s : State) (r : RegIndex) (v : Byte) : (s.setReg r v).run = s.run := rfl
@[simp] theorem setReg_cause (s : State) (r : RegIndex) (v : Byte) : (s.setReg r v).cause = s.cause := rfl
@[simp] theorem setReg_info (s : State) (r : RegIndex) (v : Byte) : (s.setReg r v).info = s.info := rfl
@[simp] theorem setReg_out (s : State) (r : RegIndex) (v : Byte) : (s.setReg r v).out = s.out := rfl

@[simp] theorem decSp_pc (s : State) : s.decSp.pc = s.pc := rfl
@[simp] theorem decSp_fl (s : State) : s.decSp.fl = s.fl := rfl
@[simp] theorem decSp_mem (s : State) : s.decSp.mem = s.mem := rfl
@[simp] theorem decSp_run (s : State) : s.decSp.run = s.run := rfl
@[simp] theorem decSp_cause (s : State) : s.decSp.cause = s.cause := rfl
@[simp] theorem decSp_info (s : State) : s.decSp.info = s.info := rfl
@[simp] theorem decSp_out (s : State) : s.decSp.out = s.out := rfl

@[simp] theorem incSp_pc (s : State) : s.incSp.pc = s.pc := rfl
@[simp] theorem incSp_fl (s : State) : s.incSp.fl = s.fl := rfl
@[simp] theorem incSp_mem (s : State) : s.incSp.mem = s.mem := rfl
@[simp] theorem incSp_run (s : State) : s.incSp.run = s.run := rfl
@[simp] theorem incSp_cause (s : State) : s.incSp.cause = s.cause := rfl
@[simp] theorem incSp_info (s : State) : s.incSp.info = s.info := rfl
@[simp] theorem incSp_out (s : State) : s.incSp.out = s.out := rfl

@[simp] theorem setPc_pc (s : State) (p : Word9) : (s.setPc p).pc = p := rfl
@[simp] theorem setPc_fl (s : State) (p : Word9) : (s.setPc p).fl = s.fl := rfl
@[simp] theorem setPc_mem (s : State) (p : Word9) : (s.setPc p).mem = s.mem := rfl
@[simp] theorem setPc_run (s : State) (p : Word9) : (s.setPc p).run = s.run := rfl
@[simp] theorem setPc_cause (s : State) (p : Word9) : (s.setPc p).cause = s.cause := rfl
@[simp] theorem setPc_info (s : State) (p : Word9) : (s.setPc p).info = s.info := rfl
@[simp] theorem setPc_out (s : State) (p : Word9) : (s.setPc p).out = s.out := rfl

@[simp] theorem advancePc_pc (s : State) (n : Nat) : (s.advancePc n).pc = s.pc + BitVec.ofNat 9 n := rfl
@[simp] theorem advancePc_fl (s : State) (n : Nat) : (s.advancePc n).fl = s.fl := rfl
@[simp] theorem advancePc_mem (s : State) (n : Nat) : (s.advancePc n).mem = s.mem := rfl
@[simp] theorem advancePc_run (s : State) (n : Nat) : (s.advancePc n).run = s.run := rfl
@[simp] theorem advancePc_cause (s : State) (n : Nat) : (s.advancePc n).cause = s.cause := rfl
@[simp] theorem advancePc_info (s : State) (n : Nat) : (s.advancePc n).info = s.info := rfl
@[simp] theorem advancePc_out (s : State) (n : Nat) : (s.advancePc n).out = s.out := rfl

@[simp] theorem store_pc (s : State) (a : Nat) (v : Byte) : (s.store a v).pc = s.pc := rfl
@[simp] theorem store_fl (s : State) (a : Nat) (v : Byte) : (s.store a v).fl = s.fl := rfl
@[simp] theorem store_mem (s : State) (a : Nat) (v : Byte) : (s.store a v).mem = s.mem.write a v := rfl
@[simp] theorem store_run (s : State) (a : Nat) (v : Byte) : (s.store a v).run = s.run := rfl
@[simp] theorem store_cause (s : State) (a : Nat) (v : Byte) : (s.store a v).cause = s.cause := rfl
@[simp] theorem store_info (s : State) (a : Nat) (v : Byte) : (s.store a v).info = s.info := rfl
@[simp] theorem store_out (s : State) (a : Nat) (v : Byte) : (s.store a v).out = s.out := rfl

@[simp] theorem setFl_pc (s : State) (v : Byte) : (s.setFl v).pc = s.pc := rfl
@[simp] theorem setFl_fl (s : State) (v : Byte) : (s.setFl v).fl = v := rfl
@[simp] theorem setFl_mem (s : State) (v : Byte) : (s.setFl v).mem = s.mem := rfl
@[simp] theorem setFl_run (s : State) (v : Byte) : (s.setFl v).run = s.run := rfl
@[simp] theorem setFl_cause (s : State) (v : Byte) : (s.setFl v).cause = s.cause := rfl
@[simp] theorem setFl_info (s : State) (v : Byte) : (s.setFl v).info = s.info := rfl
@[simp] theorem setFl_out (s : State) (v : Byte) : (s.setFl v).out = s.out := rfl

@[simp] theorem emit_pc (s : State) (v : Byte) : (s.emit v).pc = s.pc := rfl
@[simp] theorem emit_fl (s : State) (v : Byte) : (s.emit v).fl = s.fl := rfl
@[simp] theorem emit_mem (s : State) (v : Byte) : (s.emit v).mem = s.mem := rfl
@[simp] theorem emit_run (s : State) (v : Byte) : (s.emit v).run = s.run := rfl
@[simp] theorem emit_cause (s : State) (v : Byte) : (s.emit v).cause = s.cause := rfl
@[simp] theorem emit_info (s : State) (v : Byte) : (s.emit v).info = s.info := rfl
@[simp] theorem emit_out (s : State) (v : Byte) : (s.emit v).out = s.out ++ [v] := rfl

@[simp] theorem halt_pc (s : State) : s.halt.pc = s.pc := rfl
@[simp] theorem halt_fl (s : State) : s.halt.fl = s.fl := rfl
@[simp] theorem halt_mem (s : State) : s.halt.mem = s.mem := rfl
@[simp] theorem halt_run (s : State) : s.halt.run = .halted := rfl
@[simp] theorem halt_cause (s : State) : s.halt.cause = s.cause := rfl
@[simp] theorem halt_info (s : State) : s.halt.info = s.info := rfl
@[simp] theorem halt_out (s : State) : s.halt.out = s.out := rfl

@[simp] theorem takeException_run (e : Exc) (s : State) : (takeException e s).run = .faulted := rfl
@[simp] theorem takeException_cause (e : Exc) (s : State) : (takeException e s).cause = some e.cause := rfl
@[simp] theorem takeException_info (e : Exc) (s : State) : (takeException e s).info = BitVec.ofNat 9 e.info := rfl
@[simp] theorem takeException_x (e : Exc) (s : State) : (takeException e s).x = s.x := rfl
@[simp] theorem takeException_pc (e : Exc) (s : State) : (takeException e s).pc = s.pc := rfl
@[simp] theorem takeException_fl (e : Exc) (s : State) : (takeException e s).fl = s.fl := rfl
@[simp] theorem takeException_mem (e : Exc) (s : State) : (takeException e s).mem = s.mem := rfl
@[simp] theorem takeException_out (e : Exc) (s : State) : (takeException e s).out = s.out := rfl

end Fields

section Registers

theorem reg_setReg (s : State) (r k : RegIndex) (v : Byte) :
    (s.setReg r v).reg k = if k = r then v else s.reg k := by
  simp [State.reg, State.setReg, Vector.get_eq_getElem, Vector.getElem_set, Fin.ext_iff, eq_comm]

@[simp] theorem reg_setReg_self (s : State) (r : RegIndex) (v : Byte) : (s.setReg r v).reg r = v := by
  simp [reg_setReg]

theorem reg_setReg_ne (s : State) {r k : RegIndex} (v : Byte) (h : k ≠ r) :
    (s.setReg r v).reg k = s.reg k := by
  simp [reg_setReg, h]

theorem reg_decSp (s : State) (k : RegIndex) :
    s.decSp.reg k = if k = Config.spIndex then trunc8 ((s.sp.toNat : Int) - 1) else s.reg k := by
  simp [State.decSp, reg_setReg]

theorem reg_incSp (s : State) (k : RegIndex) :
    s.incSp.reg k = if k = Config.spIndex then trunc8 ((s.sp.toNat : Int) + 1) else s.reg k := by
  simp [State.incSp, reg_setReg]

@[simp] theorem sp_decSp (s : State) : s.decSp.sp = trunc8 ((s.sp.toNat : Int) - 1) := by
  simp [State.sp, reg_decSp]

@[simp] theorem sp_incSp (s : State) : s.incSp.sp = trunc8 ((s.sp.toNat : Int) + 1) := by
  simp [State.sp, reg_incSp]

@[simp] theorem reg_setPc (s : State) (p : Word9) (k : RegIndex) : (s.setPc p).reg k = s.reg k := rfl
@[simp] theorem reg_advancePc (s : State) (n : Nat) (k : RegIndex) : (s.advancePc n).reg k = s.reg k := rfl
@[simp] theorem reg_setFl (s : State) (v : Byte) (k : RegIndex) : (s.setFl v).reg k = s.reg k := rfl
@[simp] theorem reg_emit (s : State) (v : Byte) (k : RegIndex) : (s.emit v).reg k = s.reg k := rfl
@[simp] theorem reg_halt (s : State) (k : RegIndex) : s.halt.reg k = s.reg k := rfl
@[simp] theorem reg_takeException (e : Exc) (s : State) (k : RegIndex) : (takeException e s).reg k = s.reg k := rfl
@[simp] theorem reg_store (s : State) (a : Nat) (v : Byte) (k : RegIndex) : (s.store a v).reg k = s.reg k := rfl

@[simp] theorem sp_setPc (s : State) (p : Word9) : (s.setPc p).sp = s.sp := rfl
@[simp] theorem sp_advancePc (s : State) (n : Nat) : (s.advancePc n).sp = s.sp := rfl
@[simp] theorem sp_store (s : State) (a : Nat) (v : Byte) : (s.store a v).sp = s.sp := rfl

theorem sp_setReg (s : State) (r : RegIndex) (v : Byte) :
    (s.setReg r v).sp = if r = Config.spIndex then v else s.sp := by
  simp only [State.sp, reg_setReg, eq_comm]

end Registers

end Sys2Proof.Machine
end

