-- ==== Sys2Proof/Laws/Ops.lean ====
section
/-!
SUPPORT. One lemma for each shared operation: the width conversions, the checked accesses, the operand check, completing a
step, the ALU, and the image load.
-/
namespace Sys2Proof.Machine

section Widths

theorem trunc8_toNat (v : Int) : ((trunc8 v).toNat : Int) = v % 256 := by
  simp [trunc8, BitVec.toNat_ofInt, Int.emod_nonneg]

theorem trunc8_natCast_toNat (n : Nat) : (trunc8 (n : Int)).toNat = n % 256 := by
  have := trunc8_toNat (n : Int)
  omega

theorem trunc8_pred_toNat (b : Byte) : (trunc8 ((b.toNat : Int) - 1)).toNat = (b.toNat + 255) % 256 := by
  have := trunc8_toNat ((b.toNat : Int) - 1)
  omega

theorem trunc8_succ_toNat (b : Byte) : (trunc8 ((b.toNat : Int) + 1)).toNat = (b.toNat + 1) % 256 := by
  have := trunc8_toNat ((b.toNat : Int) + 1)
  omega

theorem trunc8_succ_pred (b : Byte) : trunc8 (((trunc8 ((b.toNat : Int) - 1)).toNat : Int) + 1) = b := by
  apply BitVec.eq_of_toNat_eq
  rw [trunc8_succ_toNat, trunc8_pred_toNat]
  have := b.isLt
  omega

@[simp] theorem zext9_toNat (b : Byte) : (zext9 b).toNat = b.toNat := by
  have := b.isLt
  simp only [zext9, BitVec.toNat_setWidth]
  omega

/-- The normal form of a byte as 9 bits is `zext9`. -/
@[simp] theorem setWidth9_byte (b : Byte) : BitVec.setWidth 9 b = zext9 b := rfl

theorem ofNat9_byte (b : Byte) : BitVec.ofNat 9 b.toNat = zext9 b := by
  apply BitVec.eq_of_toNat_eq
  have := b.isLt
  rw [zext9_toNat, BitVec.toNat_ofNat]
  omega

/-- Inside the fetch window the advance of `pc` is exact. -/
theorem advance_toNat {pc : Word9} (h : pc.toNat ≤ 253) {n : Nat} (hn : n ≤ 3) :
    (pc + BitVec.ofNat 9 n).toNat = pc.toNat + n := by
  rw [BitVec.toNat_add, BitVec.toNat_ofNat]
  omega

/-- Inside the fetch window the return address is `pc + 2`. -/
theorem returnByte_toNat {pc : Word9} (h : pc.toNat ≤ 253) : (returnByte pc).toNat = pc.toNat + 2 := by
  rw [returnByte, if_pos h]
  have := trunc8_toNat ((pc.toNat : Int) + 2)
  omega

end Widths

section Accesses

theorem memRead_cell {a : Nat} (h : a < 256) (s : State) : memRead a s = .ok (s.mem.read a) := if_pos h

theorem memRead_outside {a : Nat} (h : 256 ≤ a) (s : State) : memRead a s = .error ⟨.outOfBounds, a⟩ :=
  if_neg (Nat.not_lt.2 h)

/-- A read through `SP` never raises. -/
@[simp] theorem memRead_byte (b : Byte) (s : State) : memRead b.toNat s = .ok (s.mem.read b.toNat) :=
  memRead_cell b.isLt s

theorem memWrite_cell {a : Nat} (h : a < 256) (v : Byte) (s : State) :
    memWrite a v s = .ok (s.store a v) := if_pos h

theorem memWrite_outside {a : Nat} (h : 256 ≤ a) (v : Byte) (s : State) :
    memWrite a v s = .error ⟨.outOfBounds, a⟩ := if_neg (Nat.not_lt.2 h)

/-- A write through `SP` never raises. -/
@[simp] theorem memWrite_byte (b : Byte) (v : Byte) (s : State) :
    memWrite b.toNat v s = .ok (s.store b.toNat v) := memWrite_cell b.isLt v s

end Accesses

section Operands

theorem regIdx_valid {b : Byte} {r : RegIndex} (h : b.toNat = r.val) : regIdx b = .ok r := by
  have hb : b.toNat < 8 := h ▸ r.isLt
  simp only [regIdx, dif_pos hb]
  exact congrArg _ (Fin.ext h)

theorem regIdx_invalid {b : Byte} (h : 8 ≤ b.toNat) : regIdx b = .error ⟨.registerIndex, b.toNat⟩ :=
  dif_neg (Nat.not_lt.2 h)

/-- The operand check gives the named register, or raises with the operand byte. -/
theorem regIdx_cases (b : Byte) :
    (∃ r : RegIndex, b.toNat = r.val ∧ regIdx b = .ok r) ∨
    (8 ≤ b.toNat ∧ regIdx b = .error ⟨.registerIndex, b.toNat⟩) := by
  by_cases h : b.toNat < 8
  · exact .inl ⟨⟨b.toNat, h⟩, rfl, regIdx_valid (r := ⟨b.toNat, h⟩) rfl⟩
  · exact .inr ⟨Nat.not_lt.1 h, regIdx_invalid (Nat.not_lt.1 h)⟩

end Operands

section Completing

@[simp] theorem complete_ok (s t : State) : complete s (.ok t) = t := rfl
@[simp] theorem complete_error (s : State) (e : Exc) : complete s (.error e) = takeException e s := rfl
@[simp] theorem ok_bind {α β : Type} (a : α) (f : α → Except Exc β) : ((Except.ok a : Except Exc α) >>= f) = f a := rfl
@[simp] theorem error_bind {α β : Type} (e : Exc) (f : α → Except Exc β) :
    ((Except.error e : Except Exc α) >>= f) = .error e := rfl
@[simp] theorem pure_ok {α : Type} (a : α) : (pure a : Except Exc α) = .ok a := rfl

end Completing

section Alu

@[simp] theorem aluTagOf_select (tag : AluTag) : aluTagOf tag.select = some tag := by cases tag <;> rfl

/-- The port with a supported select is the operation of its tag. -/
@[simp] theorem aluPort_select (tag : AluTag) (a b : RegIndex) (s : State) :
    aluPort tag.select a b s = .ok (aluOp tag a b s) := by simp [aluPort, aluPortWith, aluOp]

/-- The same under any flag values. -/
@[simp] theorem aluPortWith_select (c : Config.FlagCodes) (tag : AluTag) (a b : RegIndex) (s : State) :
    aluPortWith c tag.select a b s = .ok (aluOpWith c tag a b s) := by simp [aluPortWith]

/-- What the comparison gives, one case for each ordering. -/
theorem compareFlags_cases (c : Config.FlagCodes) (a b : Byte) :
    (a.toNat = b.toNat ∧ compareFlags c a b = c.equal) ∨ (a.toNat < b.toNat ∧ compareFlags c a b = c.less) ∨
    (b.toNat < a.toNat ∧ compareFlags c a b = c.greater) := by
  rcases Nat.lt_trichotomy a.toNat b.toNat with h | h | h
  · have hne : a ≠ b := fun e => by simp [e] at h
    exact .inr (.inl ⟨h, by simp [compareFlags, hne, h]⟩)
  · exact .inl ⟨h, by simp [compareFlags, BitVec.eq_of_toNat_eq h]⟩
  · have hne : a ≠ b := fun e => by simp [e] at h
    exact .inr (.inr ⟨h, by simp [compareFlags, hne, Nat.not_lt.2 h.le]⟩)

end Alu

section Load

/-- A load that is not refused writes memory and nothing else. -/
theorem load_some {img : List Nat} {s t : State} (h : load img s = some t) :
    (img.length ≤ 256 ∧ ∀ v ∈ img, v < 256) ∧
    t = { s with mem := s.mem.writeFrom 0 (img.map (BitVec.ofNat 8)) } := by
  unfold load at h
  split at h
  · next hc => exact ⟨hc, (Option.some.inj h).symm⟩
  · cases h

end Load

end Sys2Proof.Machine
end

