-- ==== Sys2Proof/Laws/Exec.lean ====
section
/-!
SUPPORT. Each meaning once: the state it completes in when its operands name registers, and the exception it takes when one
does not. Later proofs cite these and never unfold a meaning.
-/
namespace Sys2Proof.Machine

section Valid
variable (s : State) {b c : Byte} {r q : RegIndex}

theorem execLdi_valid (h : Names b r) (v : Byte) :
    execLdi b v s = .next ((s.setReg r v).advancePc 3) := by
  simp [execLdi, regIdx_valid h, immediate]

theorem execPrn_valid (h : Names b r) : execPrn b s = .next ((s.emit (s.reg r)).advancePc 2) := by
  simp [execPrn, regIdx_valid h]

theorem execMulWith_valid (f : Config.FlagCodes) (h : Names b r) (k : Names c q) :
    execMulWith f b c s = .next ((aluOpWith f .multiply r q s).advancePc 3) := by
  simp [execMulWith, regIdx_valid h, regIdx_valid k]

theorem execCmpWith_valid (f : Config.FlagCodes) (h : Names b r) (k : Names c q) :
    execCmpWith f b c s = .next ((aluOpWith f .compare r q s).advancePc 3) := by
  simp [execCmpWith, regIdx_valid h, regIdx_valid k]

theorem execMul_valid (h : Names b r) (k : Names c q) :
    execMul b c s = .next ((aluOp .multiply r q s).advancePc 3) := execMulWith_valid s _ h k

theorem execCmp_valid (h : Names b r) (k : Names c q) :
    execCmp b c s = .next ((aluOp .compare r q s).advancePc 3) := execCmpWith_valid s _ h k

/-- PUSH as the decrement of `SP`, one store and the advance of `pc`. -/
theorem execPush_valid (h : Names b r) :
    execPush b s =
      .next ((s.decSp.store s.decSp.sp.toNat (s.decSp.reg r)).advancePc 2) := by
  simp only [execPush, regIdx_valid h, ok_bind, memWrite_byte, pure_ok, complete_ok]

theorem execPop_valid (h : Names b r) :
    execPop b s = .next ((s.setReg r (s.mem.read s.sp.toNat)).incSp.advancePc 2) := by
  simp [execPop, regIdx_valid h]

theorem execCall_valid (h : Names b r) :
    execCall b s =
      .next ((s.decSp.store s.decSp.sp.toNat (returnByte s.pc)).setPc
        (zext9 (s.decSp.reg r))) := by
  simp only [execCall, regIdx_valid h, ok_bind, memWrite_byte, pure_ok, complete_ok, decSp_pc, reg_store]

theorem execRet_eq : execRet s = .next ((s.setPc (zext9 (s.mem.read s.sp.toNat))).incSp) := by
  simp [execRet]

end Valid

section Invalid
variable (s : State) {b : Byte} (c : Byte)

/-- The exception that an invalid register operand takes. -/
def badOperand (b : Byte) (s : State) : State := takeException ⟨.registerIndex, b.toNat⟩ s

theorem execLdi_invalid (h : 8 ≤ b.toNat) : execLdi b c s = .next (badOperand b s) := by
  simp [execLdi, regIdx_invalid h, badOperand]

theorem execPrn_invalid (h : 8 ≤ b.toNat) : execPrn b s = .next (badOperand b s) := by
  simp [execPrn, regIdx_invalid h, badOperand]

theorem execMulWith_invalid_first (f : Config.FlagCodes) (h : 8 ≤ b.toNat) :
    execMulWith f b c s = .next (badOperand b s) := by
  simp [execMulWith, regIdx_invalid h, badOperand]

theorem execMulWith_invalid_second (f : Config.FlagCodes) {a : Byte} {r : RegIndex} (k : Names a r) (h : 8 ≤ b.toNat) :
    execMulWith f a b s = .next (badOperand b s) := by
  simp [execMulWith, regIdx_valid k, regIdx_invalid h, badOperand]

theorem execMul_invalid_first (h : 8 ≤ b.toNat) : execMul b c s = .next (badOperand b s) :=
  execMulWith_invalid_first s c _ h

theorem execMul_invalid_second {a : Byte} {r : RegIndex} (k : Names a r) (h : 8 ≤ b.toNat) :
    execMul a b s = .next (badOperand b s) := execMulWith_invalid_second s _ k h

theorem execCmpWith_invalid_first (f : Config.FlagCodes) (h : 8 ≤ b.toNat) :
    execCmpWith f b c s = .next (badOperand b s) := by
  simp [execCmpWith, regIdx_invalid h, badOperand]

theorem execCmpWith_invalid_second (f : Config.FlagCodes) {a : Byte} {r : RegIndex} (k : Names a r) (h : 8 ≤ b.toNat) :
    execCmpWith f a b s = .next (badOperand b s) := by
  simp [execCmpWith, regIdx_valid k, regIdx_invalid h, badOperand]

theorem execCmp_invalid_first (h : 8 ≤ b.toNat) : execCmp b c s = .next (badOperand b s) :=
  execCmpWith_invalid_first s c _ h

theorem execCmp_invalid_second {a : Byte} {r : RegIndex} (k : Names a r) (h : 8 ≤ b.toNat) :
    execCmp a b s = .next (badOperand b s) := execCmpWith_invalid_second s _ k h

theorem execPush_invalid (h : 8 ≤ b.toNat) : execPush b s = .next (badOperand b s) := by
  simp [execPush, regIdx_invalid h, badOperand]

theorem execPop_invalid (h : 8 ≤ b.toNat) : execPop b s = .next (badOperand b s) := by
  simp [execPop, regIdx_invalid h, badOperand]

theorem execCall_invalid (h : 8 ≤ b.toNat) : execCall b s = .next (badOperand b s) := by
  simp [execCall, regIdx_invalid h, badOperand]

end Invalid

/-- What `execAt` can do, once, under any parameters: the instruction completes as its meaning says, or its first bad operand
raises. -/
theorem execAt_cases (p : Config.Params) (i : Instr) (s t : State) (h : execAt p i s = .next t) :
    (∃ b v r, i = .ldi b v ∧ Names b r ∧ t = (s.setReg r v).advancePc 3) ∨
    (i = .hlt ∧ t = s.halt) ∨
    (∃ b r, i = .prn b ∧ Names b r ∧ t = (s.emit (s.reg r)).advancePc 2) ∨
    (∃ b c r q, i = .mul b c ∧ Names b r ∧ Names c q ∧ t = (aluOpWith p.flags .multiply r q s).advancePc 3) ∨
    (∃ b c r q, i = .cmp b c ∧ Names b r ∧ Names c q ∧ t = (aluOpWith p.flags .compare r q s).advancePc 3) ∨
    (∃ b r, i = .push b ∧ Names b r ∧
      t = (s.decSp.store s.decSp.sp.toNat (s.decSp.reg r)).advancePc 2) ∨
    (∃ b r, i = .pop b ∧ Names b r ∧ t = (s.setReg r (s.mem.read s.sp.toNat)).incSp.advancePc 2) ∨
    (∃ b r, i = .call b ∧ Names b r ∧
      t = (s.decSp.store s.decSp.sp.toNat (returnByte s.pc)).setPc
        (zext9 (s.decSp.reg r))) ∨
    (i = .ret ∧ t = (s.setPc (zext9 (s.mem.read s.sp.toNat))).incSp) ∨
    (∃ b, i.firstBadOperand = some b ∧ 8 ≤ b.toNat ∧ t = badOperand b s) := by
  have inj : ∀ {u v : State}, (Host.Outcome.next u : Host.Outcome State Fault Refusal) = .next v → v = u :=
    fun e => by cases e; rfl
  have bad1 : ∀ {j : Instr} {b : Byte}, j.regOperands = [b] → 8 ≤ b.toNat → j.firstBadOperand = some b :=
    fun e hb => by simp [Instr.firstBadOperand, e, validRegOperand, Nat.not_lt.2 hb]
  have bad2 : ∀ {j : Instr} {b c : Byte}, j.regOperands = [b, c] → 8 ≤ b.toNat → j.firstBadOperand = some b :=
    fun e hb => by simp [Instr.firstBadOperand, e, validRegOperand, Nat.not_lt.2 hb]
  have bad3 : ∀ {j : Instr} {b c : Byte} {r : RegIndex}, j.regOperands = [b, c] → Names b r → 8 ≤ c.toNat →
      j.firstBadOperand = some c :=
    fun {j b c r} e hb hc => by
      have : b.toNat < 8 := hb ▸ r.isLt
      simp [Instr.firstBadOperand, e, validRegOperand, List.find?, this, Nat.not_lt.2 hc]
  cases i with
  | ldi b v =>
    rcases regIdx_cases b with ⟨r, hr, -⟩ | ⟨hb, -⟩
    · exact .inl ⟨b, v, r, rfl, hr, inj ((execLdi_valid s hr v).symm.trans h)⟩
    · iterate 9 right
      exact ⟨b, bad1 rfl hb, hb, inj ((execLdi_invalid s v hb).symm.trans h)⟩
  | hlt => exact .inr (.inl ⟨rfl, inj h⟩)
  | prn b =>
    rcases regIdx_cases b with ⟨r, hr, -⟩ | ⟨hb, -⟩
    · exact .inr (.inr (.inl ⟨b, r, rfl, hr, inj ((execPrn_valid s hr).symm.trans h)⟩))
    · iterate 9 right
      exact ⟨b, bad1 rfl hb, hb, inj ((execPrn_invalid s hb).symm.trans h)⟩
  | mul b c =>
    rcases regIdx_cases b with ⟨r, hr, -⟩ | ⟨hb, -⟩
    · rcases regIdx_cases c with ⟨q, hq, -⟩ | ⟨hc, -⟩
      · iterate 3 right
        exact .inl ⟨b, c, r, q, rfl, hr, hq, inj ((execMulWith_valid s p.flags hr hq).symm.trans h)⟩
      · iterate 9 right
        exact ⟨c, bad3 rfl hr hc, hc, inj ((execMulWith_invalid_second s p.flags hr hc).symm.trans h)⟩
    · iterate 9 right
      exact ⟨b, bad2 rfl hb, hb, inj ((execMulWith_invalid_first s c p.flags hb).symm.trans h)⟩
  | cmp b c =>
    rcases regIdx_cases b with ⟨r, hr, -⟩ | ⟨hb, -⟩
    · rcases regIdx_cases c with ⟨q, hq, -⟩ | ⟨hc, -⟩
      · iterate 4 right
        exact .inl ⟨b, c, r, q, rfl, hr, hq, inj ((execCmpWith_valid s p.flags hr hq).symm.trans h)⟩
      · iterate 9 right
        exact ⟨c, bad3 rfl hr hc, hc, inj ((execCmpWith_invalid_second s p.flags hr hc).symm.trans h)⟩
    · iterate 9 right
      exact ⟨b, bad2 rfl hb, hb, inj ((execCmpWith_invalid_first s c p.flags hb).symm.trans h)⟩
  | push b =>
    rcases regIdx_cases b with ⟨r, hr, -⟩ | ⟨hb, -⟩
    · iterate 5 right
      exact .inl ⟨b, r, rfl, hr, inj ((execPush_valid s hr).symm.trans h)⟩
    · iterate 9 right
      exact ⟨b, bad1 rfl hb, hb, inj ((execPush_invalid s hb).symm.trans h)⟩
  | pop b =>
    rcases regIdx_cases b with ⟨r, hr, -⟩ | ⟨hb, -⟩
    · iterate 6 right
      exact .inl ⟨b, r, rfl, hr, inj ((execPop_valid s hr).symm.trans h)⟩
    · iterate 9 right
      exact ⟨b, bad1 rfl hb, hb, inj ((execPop_invalid s hb).symm.trans h)⟩
  | call b =>
    rcases regIdx_cases b with ⟨r, hr, -⟩ | ⟨hb, -⟩
    · iterate 7 right
      exact .inl ⟨b, r, rfl, hr, inj ((execCall_valid s hr).symm.trans h)⟩
    · iterate 9 right
      exact ⟨b, bad1 rfl hb, hb, inj ((execCall_invalid s hb).symm.trans h)⟩
  | ret =>
    iterate 8 right
    exact .inl ⟨rfl, inj ((execRet_eq s).symm.trans h)⟩

/-- `exec` is the parametric machine at the default parameters. -/
theorem exec_eq_execAt (i : Instr) (s : State) : exec i s = execAt Config.params i s := by cases i <;> rfl

/-- What `exec` can do, once: the instruction completes as its meaning says, or its first bad operand raises. -/
theorem exec_cases (i : Instr) (s t : State) (h : exec i s = .next t) :
    (∃ b v r, i = .ldi b v ∧ Names b r ∧ t = (s.setReg r v).advancePc 3) ∨
    (i = .hlt ∧ t = s.halt) ∨
    (∃ b r, i = .prn b ∧ Names b r ∧ t = (s.emit (s.reg r)).advancePc 2) ∨
    (∃ b c r q, i = .mul b c ∧ Names b r ∧ Names c q ∧ t = (aluOp .multiply r q s).advancePc 3) ∨
    (∃ b c r q, i = .cmp b c ∧ Names b r ∧ Names c q ∧ t = (aluOp .compare r q s).advancePc 3) ∨
    (∃ b r, i = .push b ∧ Names b r ∧
      t = (s.decSp.store s.decSp.sp.toNat (s.decSp.reg r)).advancePc 2) ∨
    (∃ b r, i = .pop b ∧ Names b r ∧ t = (s.setReg r (s.mem.read s.sp.toNat)).incSp.advancePc 2) ∨
    (∃ b r, i = .call b ∧ Names b r ∧
      t = (s.decSp.store s.decSp.sp.toNat (returnByte s.pc)).setPc
        (zext9 (s.decSp.reg r))) ∨
    (i = .ret ∧ t = (s.setPc (zext9 (s.mem.read s.sp.toNat))).incSp) ∨
    (∃ b, i.firstBadOperand = some b ∧ 8 ≤ b.toNat ∧ t = badOperand b s) :=
  execAt_cases Config.params i s t ((exec_eq_execAt i s).symm.trans h)

end Sys2Proof.Machine
end

