-- ==== Sys2Proof/Laws/PerInstr.lean ====
section
/-!
SUPPORT. The per-instruction family `EncodedForm`: the bytes of an instruction are its opcode byte and its operands, as many
as its format says, and its register operands are among them.
-/
namespace Sys2Proof.Laws.EncodedForm

/-- The form of an encoded instruction (30_encoding.md R50, R51): the first byte is the row's opcode byte under any map, the
length is that of the row's format, and every register operand is one of the operand bytes. -/
def Statement (i : Instr) : Prop :=
  ∀ opc : OpcodeMap, (encode opc i).head? = some (opc i.mnemonic) ∧
    (encode opc i).length = i.mnemonic.format.length ∧ ∀ b ∈ i.regOperands, b ∈ (encode opc i).tail

theorem ldi (reg value : Byte) : Statement (.ldi reg value) :=
  fun _ => ⟨rfl, rfl, by simp [Instr.regOperands, encode, Instr.operands]⟩
theorem hlt : Statement .hlt := fun _ => ⟨rfl, rfl, by simp [Instr.regOperands]⟩
theorem prn (reg : Byte) : Statement (.prn reg) :=
  fun _ => ⟨rfl, rfl, by simp [Instr.regOperands, encode, Instr.operands]⟩
theorem mul (regA regB : Byte) : Statement (.mul regA regB) :=
  fun _ => ⟨rfl, rfl, by simp [Instr.regOperands, encode, Instr.operands]⟩
theorem cmp (regA regB : Byte) : Statement (.cmp regA regB) :=
  fun _ => ⟨rfl, rfl, by simp [Instr.regOperands, encode, Instr.operands]⟩
theorem push (reg : Byte) : Statement (.push reg) :=
  fun _ => ⟨rfl, rfl, by simp [Instr.regOperands, encode, Instr.operands]⟩
theorem pop (reg : Byte) : Statement (.pop reg) :=
  fun _ => ⟨rfl, rfl, by simp [Instr.regOperands, encode, Instr.operands]⟩
theorem call (reg : Byte) : Statement (.call reg) :=
  fun _ => ⟨rfl, rfl, by simp [Instr.regOperands, encode, Instr.operands]⟩
theorem ret : Statement .ret := fun _ => ⟨rfl, rfl, by simp [Instr.regOperands]⟩

end Sys2Proof.Laws.EncodedForm
end

