-- ==== Sys2Proof/Laws/Step.lean ====
section
/-!
SUPPORT. Fetch and the step, once: when fetch succeeds, when and with what it raises, and the three things a step can be.
-/
namespace Sys2Proof.Machine

/-- Inside the fetch window the fetch gives the three bytes at `pc`. -/
theorem fetch_inside {s : State} (h : s.pc.toNat ≤ 253) : fetch s = .ok s.windowBytes := by
  simp only [fetch, memRead_cell (show s.pc.toNat < 256 by omega), memRead_cell (show s.pc.toNat + 1 < 256 by omega),
    memRead_cell (show s.pc.toNat + 2 < 256 by omega), ok_bind, pure_ok, State.windowBytes]

/-- At 254, 255 and 256 the fetch raises `OutOfBounds(256)`. -/
theorem fetch_outside {s : State} (h : 254 ≤ s.pc.toNat) (k : s.pc.toNat ≤ 256) :
    fetch s = .error ⟨.outOfBounds, 256⟩ := by
  rcases (show s.pc.toNat = 254 ∨ s.pc.toNat = 255 ∨ s.pc.toNat = 256 by omega) with e | e | e <;>
    simp [fetch, e, memRead, Config.memSize]

section AnyParameters
variable {opc : OpcodeMap} {p : Config.Params}

theorem dispatchWith_some {w : FetchWindow} {i : Instr} (h : decodeWindow opc w = some i) : dispatchWith opc w = .ok i := by
  simp [dispatchWith, h]

theorem dispatchWith_none {w : FetchWindow} (h : decodeWindow opc w = none) :
    dispatchWith opc w = .error ⟨.unknownInstruction, w.opcode.toNat⟩ := by
  simp [dispatchWith, h]

theorem fetchInstrWith_inside {s : State} (h : s.pc.toNat ≤ 253) :
    fetchInstrWith opc s = dispatchWith opc s.windowBytes := by
  simp [fetchInstrWith, fetch_inside h]

theorem fetchInstrWith_outside {s : State} (h : 254 ≤ s.pc.toNat) (k : s.pc.toNat ≤ 256) :
    fetchInstrWith opc s = .error ⟨.outOfBounds, 256⟩ := by
  simp [fetchInstrWith, fetch_outside h k]

/-- An instruction is given only by a fetch inside the window, and it is the decoding of the bytes there. -/
theorem fetchInstrWith_ok {s : State} {i : Instr} (h : fetchInstrWith opc s = .ok i) :
    s.pc.toNat ≤ 253 ∧ decodeWindow opc s.windowBytes = some i := by
  by_cases hpc : s.pc.toNat ≤ 253
  · rw [fetchInstrWith_inside hpc] at h
    refine ⟨hpc, ?_⟩
    unfold dispatchWith at h
    split at h
    · next j hj => rw [hj]; cases h; rfl
    · cases h
  · exfalso
    by_cases h0 : s.pc.toNat < 256
    · rw [fetchInstrWith_outside (by omega) (by omega)] at h
      cases h
    · simp [fetchInstrWith, fetch, memRead_outside (Nat.not_lt.1 h0)] at h

/-- What a fetch of a legal `pc` can raise. -/
theorem fetchInstrWith_error {s : State} {e : Exc} (hpc : s.pc.toNat ≤ 256) (h : fetchInstrWith opc s = .error e) :
    (254 ≤ s.pc.toNat ∧ e = ⟨.outOfBounds, 256⟩) ∨
    (s.pc.toNat ≤ 253 ∧ decodeWindow opc s.windowBytes = none ∧
      e = ⟨.unknownInstruction, (s.mem.read s.pc.toNat).toNat⟩) := by
  by_cases hw : s.pc.toNat ≤ 253
  · rw [fetchInstrWith_inside hw] at h
    unfold dispatchWith at h
    split at h
    · cases h
    · next hn => exact .inr ⟨hw, hn, (Except.error.inj h).symm⟩
  · rw [fetchInstrWith_outside (by omega) hpc] at h
    exact .inl ⟨by omega, (Except.error.inj h).symm⟩

/-- The three things the engine's step can be, whatever the handlers: none at all, an exception of fetch or dispatch, or an
instruction carried out. -/
theorem engineStep_cases {handler : Instr → State → Host.Outcome State Fault Refusal} {s t : State}
    (h : engineStep opc handler s = .next t) :
    (s.run ≠ .running ∧ t = s) ∨
    (s.run = .running ∧ ∃ e, fetchInstrWith opc s = .error e ∧ t = takeException e s) ∨
    (s.run = .running ∧ ∃ i, fetchInstrWith opc s = .ok i ∧ handler i s = .next t) := by
  unfold engineStep at h
  split at h
  · next hr =>
    split at h
    · next e he => exact .inr (.inl ⟨hr, e, he, by cases h; rfl⟩)
    · next i hi => exact .inr (.inr ⟨hr, i, hi, h⟩)
  · next hr => exact .inl ⟨by simp [hr], by cases h; rfl⟩
  · next hr => exact .inl ⟨by simp [hr], by cases h; rfl⟩

/-- The three things a step of the parametric machine can be. -/
theorem stepAt_cases {s t : State} (h : stepAt p s = .next t) :
    (s.run ≠ .running ∧ t = s) ∨
    (s.run = .running ∧ ∃ e, fetchInstrWith p.opc s = .error e ∧ t = takeException e s) ∨
    (s.run = .running ∧ ∃ i, fetchInstrWith p.opc s = .ok i ∧ execAt p i s = .next t) := engineStep_cases h

/-- `step` is the parametric machine at the default parameters. -/
theorem step_eq_stepAt (s : State) : step s = stepAt Config.params s :=
  congrArg (fun f => engineStep Config.opc f s) (funext fun i => funext fun s => exec_eq_execAt i s)

end AnyParameters

section DefaultParameters

theorem dispatch_some {w : FetchWindow} {i : Instr} (h : decodeWindow Config.opc w = some i) : dispatch w = .ok i :=
  dispatchWith_some h

theorem dispatch_none {w : FetchWindow} (h : decodeWindow Config.opc w = none) :
    dispatch w = .error ⟨.unknownInstruction, w.opcode.toNat⟩ := dispatchWith_none h

theorem fetchInstr_inside {s : State} (h : s.pc.toNat ≤ 253) : fetchInstr s = dispatch s.windowBytes :=
  fetchInstrWith_inside h

theorem fetchInstr_outside {s : State} (h : 254 ≤ s.pc.toNat) (k : s.pc.toNat ≤ 256) :
    fetchInstr s = .error ⟨.outOfBounds, 256⟩ := fetchInstrWith_outside h k

theorem fetchInstr_ok {s : State} {i : Instr} (h : fetchInstr s = .ok i) :
    s.pc.toNat ≤ 253 ∧ decodeWindow Config.opc s.windowBytes = some i := fetchInstrWith_ok h

theorem fetchInstr_error {s : State} {e : Exc} (hpc : s.pc.toNat ≤ 256) (h : fetchInstr s = .error e) :
    (254 ≤ s.pc.toNat ∧ e = ⟨.outOfBounds, 256⟩) ∨
    (s.pc.toNat ≤ 253 ∧ decodeWindow Config.opc s.windowBytes = none ∧
      e = ⟨.unknownInstruction, (s.mem.read s.pc.toNat).toNat⟩) := fetchInstrWith_error hpc h

/-- A step that is about to carry out an instruction carries it out. -/
theorem step_of_executes {s : State} {i : Instr} (h : s.Executes i) : step s = exec i s := by
  have h2 : fetchInstrWith Config.opc s = .ok i := h.2
  simp [step, engineStep, h.1, h2]

/-- A step whose fetch or dispatch raises takes that exception. -/
theorem step_of_raise {s : State} {e : Exc} (hr : s.run = .running) (h : fetchInstr s = .error e) :
    step s = .next (takeException e s) := by
  have h2 : fetchInstrWith Config.opc s = .error e := h
  simp [step, engineStep, hr, h2]

/-- A machine that is not Running answers its own state. -/
theorem step_of_terminal {s : State} (h : s.run ≠ .running) : step s = .next s := by
  unfold step engineStep
  cases hr : s.run
  · exact absurd hr h
  · rfl
  · rfl

/-- The three things a step can be: none at all, an exception of fetch or dispatch, or an instruction carried out. -/
theorem step_cases {s t : State} (h : step s = .next t) :
    (s.run ≠ .running ∧ t = s) ∨
    (s.run = .running ∧ ∃ e, fetchInstr s = .error e ∧ t = takeException e s) ∨
    (∃ i, s.Executes i ∧ exec i s = .next t) :=
  (engineStep_cases h).imp_right (Or.imp_right fun ⟨hr, i, hi, he⟩ => ⟨i, ⟨hr, hi⟩, he⟩)

end DefaultParameters

section Placing

/-- Inside the fetch window `withFetchWord` puts the three bytes of the word where the next fetch reads them, and changes
nothing but memory. -/
theorem withFetchWord_inside {s : State} (h : s.pc.toNat ≤ 253) (nbits w : Nat) :
    s.withFetchWord nbits w =
      ((s.store s.pc.toNat (tableByte nbits w 0)).store (s.pc.toNat + 1) (tableByte nbits w 1)).store (s.pc.toNat + 2)
        (tableByte nbits w 2) := by
  simp only [State.withFetchWord, storeFetchWord, memWrite_cell (show s.pc.toNat < 256 by omega),
    memWrite_cell (show s.pc.toNat + 1 < 256 by omega), memWrite_cell (show s.pc.toNat + 2 < 256 by omega), ok_bind]

/-- A Running machine inside the fetch window then runs exactly the instruction that the decoder reads from the word. -/
theorem step_withFetchWord {s : State} (hr : s.run = .running) (h : s.pc.toNat ≤ 253) {nbits w : Nat} {i : Instr}
    (hd : decodeTableWord nbits w = some i) : step (s.withFetchWord nbits w) = exec i (s.withFetchWord nbits w) := by
  have hw : (s.withFetchWord nbits w).windowBytes = ⟨tableByte nbits w 0, tableByte nbits w 1, tableByte nbits w 2⟩ := by
    simp [withFetchWord_inside h, State.windowBytes, read_write]
  refine step_of_executes ⟨by simpa [withFetchWord_inside h] using hr, ?_⟩
  rw [fetchInstr_inside (by simpa [withFetchWord_inside h] using h), hw]
  refine dispatch_some ?_
  unfold decodeTableWord decodeBytes at hd
  dsimp only at hd
  split at hd
  · next j hj =>
    split at hj
    · next k hk => cases hj; cases hd; exact hk
    · cases hj
  · cases hd

end Placing

end Sys2Proof.Machine
end

