-- ==== Sys2Proof/Tests/Slice0.lean ====
section
/-!
SUPPORT. The model's own tests: ill-formed instructions that WellFormed refuses, words written out from the table's bits, single
steps with the results of spec/95_test_vectors.md (each named by its vector), and states that meet the hypotheses of the
statements.
-/
namespace Sys2Proof.Tests
open Sys2Proof.Machine

-- WellFormed: its one check, in each operand position

theorem test_wellFormed_refuses_reg_8 : (Instr.ldi 8 0).wellFormed = false := by decide
theorem test_wellFormed_refuses_reg_255 : (Instr.prn 255).wellFormed = false := by decide
theorem test_wellFormed_refuses_second_operand : (Instr.mul 0 9).wellFormed = false := by decide
theorem test_wellFormed_refuses_first_operand : (Instr.cmp 8 0).wellFormed = false := by decide
theorem test_wellFormed_accepts_reg_7_and_any_immediate : (Instr.ldi 7 255).wellFormed = true := by decide

-- Decode: the bits are those of the column 'encoding' of spec/opcode_table.json, first byte lowest

theorem test_decode_ldi : decodeTableWord 24 0b00001000_00000010_10000010 = some (.ldi 2 8) := by decide
theorem test_decode_hlt : decodeTableWord 8 0b00000001 = some .hlt := by decide
theorem test_decode_prn : decodeTableWord 16 0b00000011_01000111 = some (.prn 3) := by decide
theorem test_decode_mul : decodeTableWord 24 0b00000001_00000000_10100010 = some (.mul 0 1) := by decide
theorem test_decode_cmp : decodeTableWord 24 0b00000111_00000100_10100111 = some (.cmp 4 7) := by decide
theorem test_decode_push : decodeTableWord 16 0b00000101_01000101 = some (.push 5) := by decide
theorem test_decode_pop : decodeTableWord 16 0b00001001_01000110 = some (.pop 9) := by decide
theorem test_decode_call : decodeTableWord 16 0b00000001_01010000 = some (.call 1) := by decide
theorem test_decode_ret : decodeTableWord 8 0b00010001 = some .ret := by decide
theorem test_decode_one_bit_off_ldi : decodeBytes Config.opc [0x83, 0, 8] = .error (.unknownInstruction 0x83) := by rfl
theorem test_decode_short : decodeBytes Config.opc [0x01, 0] = .error .shortWindow := by rfl
theorem test_encode_mul : encode Config.opc (.mul 2 3) = [0b10100010, 2, 3] := by decide

-- Single steps

/-- The reset state with bytes at `pc`, and registers set in order. -/
def start (pc : Word9) (bytes : List Byte) (regs : List (RegIndex × Byte)) : State :=
  let s : State := { State.reset with pc := pc, mem := (Memory.mk []).writeFrom pc.toNat bytes }
  regs.foldl (fun s p => s.setReg p.1 p.2) s

/-- The state a step answers, or the same state where it answers none. -/
def after (s : State) : State :=
  match step s with
  | .next t => t
  | .fault _ => s
  | .refused _ => s

theorem test_ldi_stack_pointer /- V-LDI-2 -/ :
    (after (start 0 [0x82, 7, 0x10] [])).sp = 16 ∧ (after (start 0 [0x82, 7, 0x10] [])).pc = 3 := by decide
theorem test_ldi_last_address /- V-LDI-6 -/ :
    (after (start 253 [0x82, 1, 0x2A] [])).reg 1 = 42 ∧ (after (start 253 [0x82, 1, 0x2A] [])).pc = 256 := by decide
theorem test_prn_ignores_opb /- V-PRN-4 -/ :
    (after (start 0 [0x47, 0, 0x99] [(0, 72)])).out = [72] ∧ (after (start 0 [0x47, 0, 0x99] [(0, 72)])).pc = 2 := by
  decide
theorem test_prn_bad_register /- V-PRN-5 -/ :
    after (start 0 [0x47, 0xFF] []) =
      { start 0 [0x47, 0xFF] [] with run := .faulted, cause := some .registerIndex, info := 255 } := by decide
theorem test_mul_keeps_low_byte /- V-MUL-2 -/ :
    (after (start 0 [0xA2, 0, 1] [(0, 200), (1, 100)])).reg 0 = 32 := by decide
theorem test_mul_first_bad_operand_reported /- V-MUL-11 -/ :
    (after (start 0 [0xA2, 8, 9] [])).info = 8 ∧ (after (start 0 [0xA2, 0, 9] [])).info = 9 := by decide
theorem test_cmp_unsigned /- V-CMP-6 -/ : (after (start 0 [0xA7, 0, 1] [(0, 128), (1, 127)])).fl = 2 := by decide
theorem test_cmp_same_register_clears_less /- V-CMP-7 -/ :
    (after { start 0 [0xA7, 3, 3] [(3, 9)] with fl := 4 }).fl = 1 := by decide
theorem test_push_wraps /- V-PUSH-2 -/ :
    (after (start 0 [0x45, 1] [(1, 171), (7, 0)])).sp = 255 ∧
    (after (start 0 [0x45, 1] [(1, 171), (7, 0)])).mem.read 255 = 171 := by decide
theorem test_push_sp_stores_decremented /- V-PUSH-3 -/ :
    (after (start 0 [0x45, 7] [])).sp = 254 ∧ (after (start 0 [0x45, 7] [])).mem.read 254 = 254 := by decide
theorem test_pop_own_opcode /- V-POP-5 -/ :
    (after (start 4 [0x46, 1] [(7, 4)])).reg 1 = 70 ∧ (after (start 4 [0x46, 1] [(7, 4)])).sp = 5 := by decide
theorem test_pop_sp_increments_after /- V-POP-4 -/ :
    (after { start 0 [0x46, 7] [(7, 254)] with mem := ((Memory.mk []).write 254 255).writeFrom 0 [0x46, 7] }).sp = 0 := by
  decide
theorem test_call_highest /- V-CALL-2 -/ :
    (after (start 253 [0x50, 0] [(0, 20)])).pc = 20 ∧ (after (start 253 [0x50, 0] [(0, 20)])).mem.read 254 = 255 := by
  decide
theorem test_call_sp_jumps_to_stack /- V-CALL-4 -/ :
    (after (start 10 [0x50, 7] [])).pc = 254 ∧ (after (start 10 [0x50, 7] [])).mem.read 254 = 12 := by decide
theorem test_ret_own_opcode /- V-RET-4 -/ :
    (after (start 0 [0x11] [(7, 0)])).pc = 17 ∧ (after (start 0 [0x11] [(7, 0)])).sp = 1 := by decide
theorem test_ret_past_window /- V-RET-5 -/ :
    (after (start 254 [0x11] [(7, 200)])).info = 256 ∧ (after (start 254 [0x11] [(7, 200)])).sp = 200 := by decide
theorem test_hlt_last_address /- V-HLT-2 -/ :
    after (start 253 [0x01] []) = { start 253 [0x01] [] with run := .halted } := by decide
theorem test_hlt_past_window /- V-HLT-4 -/ : (after (start 255 [0x01] [])).run = .faulted := by decide
theorem test_unknown_opcode /- V-DSP-2 -/ :
    after (start 0 [0xA0, 0, 1] []) =
      { start 0 [0xA0, 0, 1] [] with run := .faulted, cause := some .unknownInstruction, info := 160 } := by decide
theorem test_bound_before_unknown /- V-DSP-6, V-DSP-7 -/ :
    (after (start 254 [0xFF] [])).cause = some .outOfBounds ∧
    (after (start 253 [0xFF, 8, 8] [])).cause = some .unknownInstruction := by decide
theorem test_alu_add_wraps /- V-ADD-1 -/ :
    (aluOp .add 0 1 (start 0 [] [(0, 200), (1, 100)])).reg 0 = 44 := by decide
theorem test_written_fill_leaves_no_entry : ((Memory.mk []).write 9 5).write 9 0 = ⟨[]⟩ := by decide
theorem test_withFetchWord_runs : (after (State.reset.withFetchWord 24 0x100082)).reg 0 = 16 := by decide

-- Witnesses: each statement with hypotheses has states and operands that meet them all together

theorem witness_injective_map : Config.opc.Injective := by
  intro m n
  cases m <;> cases n <;> decide
theorem witness_round_trip_length : 3 ≤ (encode Config.opc .hlt ++ [0, 0]).length := by decide
theorem witness_decoded_bytes : decodeBytes Config.opc [0x46, 7, 0] = .ok (.pop 7) := by rfl
theorem witness_legal_flags : Config.flags.Legal := by decide
theorem witness_unknown_opcode : ∀ m, Config.opc m ≠ 0xA0 := by
  intro m
  cases m <;> decide

/-- StepRunsDecodedInstruction, and FaultPriorityOrder's clause of a well-formed instruction, at the last address. -/
theorem witness_step_runs :
    (start 253 [0x82, 1, 2] []).run = .running ∧ (start 253 [0x82, 1, 2] []).pc.toNat ≤ 253 ∧
    decodeWindow Config.opc (start 253 [0x82, 1, 2] []).windowBytes = some (.ldi 1 2) ∧
    (Instr.ldi 1 2).wellFormed = true := by decide
/-- FetchPastWindowFaults, FaultPriorityOrder's first clause and RetReturns' clause of a RET that cannot execute, at both ends
of the range. -/
theorem witness_past_window :
    ((start 254 [] []).run = .running ∧ 254 ≤ (start 254 [] []).pc.toNat ∧ (start 254 [] []).pc.toNat ≤ 256) ∧
    ((start 256 [] []).run = .running ∧ 254 ≤ (start 256 [] []).pc.toNat ∧ (start 256 [] []).pc.toNat ≤ 256) := by decide
/-- DispatchLooksUpOpcode and FaultPriorityOrder's second clause, at the last address. -/
theorem witness_unknown_at_253 :
    (start 253 [0xA0] []).run = .running ∧ (start 253 [0xA0] []).pc.toNat ≤ 253 ∧
    ¬ InTable Config.opc ((start 253 [0xA0] []).mem.read (start 253 [0xA0] []).pc.toNat) ∧
    decodeWindow Config.opc (start 253 [0xA0] []).windowBytes = none :=
  ⟨by decide, by decide, fun ⟨m, h⟩ => witness_unknown_opcode m (h.trans (by decide)), by decide⟩
theorem witness_known_opcode : Config.opc .ret = (FetchWindow.mk 0x11 0 0).opcode := by decide
/-- FaultPriorityOrder's third clause, and an exception taken by a step (FaultsArePrecise). -/
theorem witness_bad_operand :
    decodeWindow Config.opc (start 0 [0x47, 8] []).windowBytes = some (.prn 8) ∧
    (Instr.prn 8).firstBadOperand = some 8 ∧ (after (start 0 [0x47, 8] [])).run = .faulted := by decide
/-- TerminalStatesHold, RunStateTransitions, RunsOnlyExtendOutput, ExitStatusOfTerminalStates: each run state. -/
theorem witness_run_states :
    (after (start 0 [0x01] [])).run = .halted ∧ (after (start 0 [] [])).run = .faulted ∧
    (start 0 [] []).run = .running ∧ (after (start 0 [0x47, 0] [])).run = .running := by decide
theorem witness_exit_fault : Config.exitFault ≠ 0 := by decide
theorem witness_executes : (start 0 [0x01] []).Executes .hlt := ⟨rfl, by rfl⟩

/-- The result statements, BadRegisterOperandFaults and BadRegisterPairFaults: register 0, register 7, and the first byte that
names none. -/
theorem witness_operands : Names 0 0 ∧ Names 7 7 ∧ Names 3 3 ∧ 8 ≤ (8#8).toNat ∧ (7#8).toNat < 8 ∧ 8 ≤ (255#8).toNat := by
  decide
/-- PopLoadsRegister: a destination that is the stack pointer and one that is not. -/
theorem witness_pop_destinations : (7 : RegIndex) = Config.spIndex ∧ (0 : RegIndex) ≠ Config.spIndex := by decide
/-- CmpSetsFlags and CompareSetsExactlyOneFlag: the three orderings. -/
theorem witness_orderings : (4#8).toNat = (4#8).toNat ∧ (0#8).toNat < (255#8).toNat ∧ (127#8).toNat < (128#8).toNat := by
  decide
/-- MemReadChecksBounds and MemWriteChecksBounds: the last cell and the first address outside. -/
theorem witness_bounds : (255 : Nat) < 256 ∧ 256 ≤ (256 : Nat) := by decide
theorem witness_fetch_error : fetch (start 255 [] []) = .error ⟨.outOfBounds, 256⟩ := by rfl
/-- StackPointerWraps: both ends of the byte. -/
theorem witness_sp_ends :
    (start 0 [] [(7, 0)]).sp = 0 ∧ (start 0 [] [(7, 255)]).sp = 255 ∧ (start 0 [] [(7, 1)]).sp ≠ 0 ∧
    (start 0 [] [(7, 254)]).sp ≠ 255 := by decide

/-- The rules over all instructions and over all steps: an instruction and a step that answer a next state. -/
theorem witness_answers : ∃ t u, exec (.push 0) State.reset = .next t ∧ step State.reset = .next u := ⟨_, _, rfl, rfl⟩
/-- UnsupportedAluTagRaises, its last clause: a Running state that already holds that cause steps and keeps it. -/
theorem witness_unsupported_cause :
    (after { start 0 [0x47, 0] [] with cause := some .unsupportedAluOp }).cause = some .unsupportedAluOp := by decide
/-- RegisterFrame and MemoryFrame: a register that PUSH does not write, and an address it does not store to. -/
theorem witness_frames :
    ¬ WritesReg (.push 0) 0 ∧ storeAddress (.push 0) State.reset = some 254 ∧ storeAddress (.ret) State.reset = none :=
  ⟨by show (0 : RegIndex) ≠ Config.spIndex; decide, by decide, rfl⟩
/-- FlagsWrittenOnlyByCmp, OutputWrittenOnlyByPrn, PcAfterEachInstruction: well-formed and ill-formed instructions. -/
theorem witness_wellFormed :
    (Instr.cmp 0 7).wellFormed = true ∧ (Instr.cmp 0 8).wellFormed = false ∧ (Instr.prn 7).wellFormed = true ∧
    (Instr.call 7).wellFormed = true ∧ (Instr.ldi 8 0).wellFormed = false := by decide

/-- StoredByteIsFetchedNext: the byte pushed lands on the next opcode (V-PUSH-4), its first and second operand. -/
theorem witness_pushed_into_window :
    (start 0 [0x45, 0, 0x47] [(0, 1), (7, 3)]).Executes (.push 0) ∧
    (after (start 0 [0x45, 0, 0x47] [(0, 1), (7, 3)])).sp.toNat =
      (after (start 0 [0x45, 0, 0x47] [(0, 1), (7, 3)])).pc.toNat ∧
    (after (start 0 [0x45, 0, 0x47] [(0, 1), (7, 4)])).sp.toNat =
      (after (start 0 [0x45, 0, 0x47] [(0, 1), (7, 4)])).pc.toNat + 1 ∧
    (after (start 0 [0x45, 0, 0x47] [(0, 1), (7, 5)])).sp.toNat =
      (after (start 0 [0x45, 0, 0x47] [(0, 1), (7, 5)])).pc.toNat + 2 ∧
    (fetch (after (start 0 [0x45, 0, 0x47] [(0, 1), (7, 3)]))).toBool = true :=
  ⟨⟨rfl, by rfl⟩, by decide, by decide, by decide, by decide⟩
/-- StoredByteIsFetchedNext for CALL: the return address lands on the opcode called. -/
theorem witness_called_into_window :
    (start 0 [0x50, 0] [(0, 40), (7, 41)]).Executes (.call 0) ∧
    (after (start 0 [0x50, 0] [(0, 40), (7, 41)])).sp.toNat = (after (start 0 [0x50, 0] [(0, 40), (7, 41)])).pc.toNat :=
  ⟨⟨rfl, by rfl⟩, by decide⟩

/-- StepKeepsInvariant, RunsKeepInvariant: a Running, a Halted and a Faulted state that meet the invariant. -/
theorem witness_invariant_running : (start 0 [0x01] []).Inv :=
  ⟨by decide, by decide, .inl rfl, fun _ => ⟨rfl, rfl⟩, fun h => absurd h (by decide), fun h => absurd h (by decide)⟩
theorem witness_invariant_halted : (after (start 0 [0x01] [])).Inv :=
  ⟨by decide, by decide, .inl (by decide), fun _ => by decide, fun h => absurd h (by decide), fun _ => by decide⟩
theorem witness_invariant_faulted : (after (start 0 [0x47, 8] [])).Inv :=
  ⟨by decide, by decide, .inl (by decide), fun h => absurd (by decide) h,
    fun _ => ⟨by decide, .prn 8, 8, by decide, by decide, by decide⟩, fun h => absurd h (by decide)⟩

/-- LoadCopiesImage, BootedMachineMeetsInvariant: the longest image is accepted; a longer one and a non-byte are refused. -/
theorem witness_images :
    (boot [0x82, 0, 8]).isSome = true ∧ (List.replicate 256 0).length ≤ 256 ∧ 256 < (List.replicate 257 0).length ∧
    load [1, 256] State.reset = none :=
  ⟨by decide, by rw [List.length_replicate], by rw [List.length_replicate]; decide, by decide⟩

/-- Parameters that differ from the defaults: LDI and HLT have exchanged their opcodes, and every fill is another. -/
def otherParams : Config.Params where
  opc := fun m => match m with
    | .ldi => 0x01
    | .hlt => 0x82
    | _ => Config.opc m
  flags := { equal := 0x04, less := 0x02, greater := 0x01 }
  regReset := 0xAA
  flReset := 0
  memFill := 0x5A
  exitFault := 3
/-- CmpUnderAnyFlagValues, BootUnderAnyParameters: legal parameters other than the defaults. -/
theorem witness_legal_parameters : otherParams.Legal :=
  ⟨by intro m n; cases m <;> cases n <;> decide, by decide, by decide, by decide⟩
/-- BootUnderAnyParameters: an image that is accepted under them, and cells that it covers and does not. -/
theorem witness_boot_other : (bootAt otherParams [0x01, 2, 7]).isSome = true ∧ (2 : Nat) < [0x01, 2, 7].length ∧
    [0x01, 2, 7].length ≤ 255 := by decide
/-- StepUnderAnyOpcodeMap, both clauses, at the last address. -/
theorem witness_other_opcodes :
    (start 253 [0x01, 2, 7] []).run = .running ∧ (start 253 [0x01, 2, 7] []).pc.toNat ≤ 253 ∧
    decodeWindow otherParams.opc (start 253 [0x01, 2, 7] []).windowBytes = some (.ldi 2 7) ∧
    ¬ InTable otherParams.opc ((start 253 [0xA0] []).mem.read 253) :=
  ⟨by decide, by decide, by decide, fun ⟨m, h⟩ => by revert h; cases m <;> decide⟩
/-- OnlyCmpReadsParameters: an instruction other than CMP. -/
theorem witness_not_cmp : ∀ a b, Instr.mul 0 1 ≠ .cmp a b := by intro a b; simp
/-- InvariantUnderAnyParameters: a Running state that meets the invariant under the other parameters. -/
theorem witness_invariant_other : (start 0 [0x82] []).InvAt otherParams :=
  ⟨by decide, by decide, .inl rfl, fun _ => ⟨rfl, rfl⟩, fun h => absurd h (by decide), fun h => absurd h (by decide)⟩
theorem test_other_parameters_run_other_instruction :
    stepAt otherParams (start 0 [0x82] []) = .next { start 0 [0x82] [] with run := .halted } := by rfl
theorem test_other_flag_value :
    (match stepAt otherParams (start 0 [0xA7, 0, 1] [(0, 128), (1, 127)]) with
      | .next t => t.fl
      | .fault _ => 0
      | .refused _ => 0) = 1 := by decide
theorem test_other_register_reset : (State.resetAt otherParams).reg 3 = 0xAA ∧ (State.resetAt otherParams).sp = 255 := by
  decide
theorem test_cause_port : causePort (after (start 0 [0x47, 8] [])) = some 4 := by decide

/-- LdiThenPrnEmitsValue, at the highest `pc` it allows. -/
theorem witness_ldi_prn :
    let s := start 250 [0x82, 7, 9, 0x47, 7] []
    s.run = .running ∧ s.pc.toNat ≤ 250 ∧ s.mem.read s.pc.toNat = Config.opc .ldi ∧
    Names (s.mem.read (s.pc.toNat + 1)) 7 ∧ s.mem.read (s.pc.toNat + 2) = 9 ∧
    s.mem.read (s.pc.toNat + 3) = Config.opc .prn ∧ Names (s.mem.read (s.pc.toNat + 4)) 7 := by decide
/-- PushThenPopRoundTrip, at the highest `pc` it allows. -/
theorem witness_push_pop :
    let s := start 251 [0x45, 0, 0x46, 6] [(0, 5), (7, 200)]
    s.run = .running ∧ s.pc.toNat ≤ 251 ∧ (0 : RegIndex) ≠ Config.spIndex ∧ (6 : RegIndex) ≠ Config.spIndex ∧
    s.mem.read s.pc.toNat = Config.opc .push ∧ Names (s.mem.read (s.pc.toNat + 1)) 0 ∧
    s.mem.read (s.pc.toNat + 2) = Config.opc .pop ∧ Names (s.mem.read (s.pc.toNat + 3)) 6 ∧
    s.decSp.sp.toNat ≠ s.pc.toNat + 2 ∧ s.decSp.sp.toNat ≠ s.pc.toNat + 3 := by decide
/-- CallThenRetReturns, at the highest `pc` it allows. -/
theorem witness_call_ret :
    let s := { start 253 [] [(1, 20)] with mem := ((Memory.mk []).write 20 0x11).writeFrom 253 [0x50, 1] }
    s.run = .running ∧ s.pc.toNat ≤ 253 ∧ (1 : RegIndex) ≠ Config.spIndex ∧
    s.mem.read s.pc.toNat = Config.opc .call ∧ Names (s.mem.read (s.pc.toNat + 1)) 1 ∧
    (s.reg 1).toNat ≤ 253 ∧ s.mem.read (s.reg 1).toNat = Config.opc .ret ∧
    s.decSp.sp.toNat ≠ (s.reg 1).toNat := by decide

end Sys2Proof.Tests
end

section
/-!
The facts about the parametric machine that the statements of 00_scope.md R4 need: an equation for each ALU operation, that
every instruction and every step answers, what a reset holds, and how the invariant `State.InvAt` passes along.
-/
namespace Sys2Proof.Machine

section Alu
variable (c : Config.FlagCodes) (a b : RegIndex) (s : State)

@[simp] theorem aluOpWith_multiply :
    aluOpWith c .multiply a b s = s.setReg a (trunc8 ((s.reg a).toNat * (s.reg b).toNat)) := rfl

@[simp] theorem aluOpWith_compare :
    aluOpWith c .compare a b s = s.setFl (compareFlags c (s.reg a) (s.reg b)) := rfl

end Alu

section Comparison
variable (c : Config.FlagCodes) {x y : Byte}

theorem compareFlags_of_eq (h : x.toNat = y.toNat) : compareFlags c x y = c.equal := by
  rcases compareFlags_cases c x y with ⟨-, hc⟩ | ⟨hlt, -⟩ | ⟨hgt, -⟩
  · exact hc
  · omega
  · omega

theorem compareFlags_of_lt (h : x.toNat < y.toNat) : compareFlags c x y = c.less := by
  rcases compareFlags_cases c x y with ⟨heq, -⟩ | ⟨-, hc⟩ | ⟨hgt, -⟩
  · omega
  · exact hc
  · omega

theorem compareFlags_of_gt (h : y.toNat < x.toNat) : compareFlags c x y = c.greater := by
  rcases compareFlags_cases c x y with ⟨heq, -⟩ | ⟨hlt, -⟩ | ⟨-, hc⟩
  · omega
  · omega
  · exact hc

variable (x y)

/-- A comparison leaves one of the three flag values (10_state.md R18). -/
theorem flagsLegalWith_compareFlags : flagsLegalWith c (compareFlags c x y) := by
  rcases compareFlags_cases c x y with ⟨-, h⟩ | ⟨-, h⟩ | ⟨-, h⟩
  · exact .inr (.inl h)
  · exact .inr (.inr (.inl h))
  · exact .inr (.inr (.inr h))

variable {c}

/-- Under legal flag values a comparison sets exactly one of the low three bits (10_state.md R17). -/
theorem compareFlags_one_bit (hc : c.Legal) :
    compareFlags c x y = 1#8 ∨ compareFlags c x y = 2#8 ∨ compareFlags c x y = 4#8 := by
  obtain ⟨hequal, hless, hgreater, -⟩ := hc
  rcases compareFlags_cases c x y with ⟨-, h⟩ | ⟨-, h⟩ | ⟨-, h⟩
  · exact h ▸ hequal
  · exact h ▸ hless
  · exact h ▸ hgreater

end Comparison

section Defaults

/-- The default opcode bytes are distinct: the lookup gives each row's own byte back its row (30_encoding.md R55). -/
theorem opc_injective : Config.opc.Injective := by
  have hlookup (m : Mnemonic) : lookupOpcode Config.opc (Config.opc m) = some m := by cases m <;> decide
  intro m n h
  exact Option.some.inj ((hlookup m).symm.trans (h ▸ hlookup n))

/-- The defaults meet the constraints of 92_eei_decisions.md section 2. -/
theorem params_legal : Config.params.Legal := ⟨opc_injective, by decide, rfl, by decide⟩

end Defaults

section Answers
variable (p : Config.Params)

/-- Every instruction answers a next state: a raise is completed by taking the exception (60_exceptions.md R113). -/
theorem execAt_answers (i : Instr) (s : State) : ∃ t, execAt p i s = .next t := by
  cases i <;> exact ⟨_, rfl⟩

variable {p} {s : State}

/-- A machine that is not Running answers its own state, under any parameters. -/
theorem stepAt_of_terminal (h : s.run ≠ .running) : stepAt p s = .next s := by
  unfold stepAt engineStep
  cases hr : s.run with
  | running => exact absurd hr h
  | halted => rfl
  | faulted => rfl

/-- A Running machine carries out the instruction that fetch and dispatch give it. -/
theorem stepAt_of_fetchInstrWith_ok (hr : s.run = .running) {i : Instr} (h : fetchInstrWith p.opc s = .ok i) :
    stepAt p s = execAt p i s := by
  simp only [stepAt, engineStep, hr, h]

/-- A Running machine whose fetch or dispatch raises takes that exception. -/
theorem stepAt_of_fetchInstrWith_error (hr : s.run = .running) {e : Exc} (h : fetchInstrWith p.opc s = .error e) :
    stepAt p s = .next (takeException e s) := by
  simp only [stepAt, engineStep, hr, h]

/-- Every step from every state answers a next state. -/
theorem stepAt_answers (p : Config.Params) (s : State) : ∃ t, stepAt p s = .next t := by
  by_cases hr : s.run = .running
  · cases hf : fetchInstrWith p.opc s with
    | error e => exact ⟨_, stepAt_of_fetchInstrWith_error hr hf⟩
    | ok i => exact stepAt_of_fetchInstrWith_ok hr hf ▸ execAt_answers p i s
  · exact ⟨s, stepAt_of_terminal hr⟩

end Answers

section Reset
variable (p : Config.Params)

@[simp] theorem resetAt_pc : (State.resetAt p).pc = 0#9 := rfl
@[simp] theorem resetAt_fl : (State.resetAt p).fl = p.flReset := rfl
@[simp] theorem resetAt_mem : (State.resetAt p).mem = Memory.filled p.memFill := rfl
@[simp] theorem resetAt_run : (State.resetAt p).run = .running := rfl
@[simp] theorem resetAt_cause : (State.resetAt p).cause = none := rfl
@[simp] theorem resetAt_info : (State.resetAt p).info = 0#9 := rfl
@[simp] theorem resetAt_out : (State.resetAt p).out = [] := rfl

theorem reg_resetAt (r : RegIndex) :
    (State.resetAt p).reg r = if r = Config.spIndex then 255#8 else p.regReset := by
  simp [State.reg, State.resetAt, Config.spReset, Vector.get_eq_getElem, Vector.getElem_set, Fin.ext_iff, eq_comm]

@[simp] theorem sp_resetAt : (State.resetAt p).sp = 255#8 := reg_resetAt p Config.spIndex

end Reset

section Invariant
variable {p : Config.Params} {s t : State}

/-- A Running state meets the invariant when its memory, `pc` and flags do and it holds no fault record; the clauses about the
terminal states say nothing of it. -/
theorem State.InvAt.of_running (hr : t.run = .running) (hm : t.mem.wf) (hpc : t.pc.toNat ≤ 256)
    (hfl : flagsLegalWith p.flags t.fl) (hrec : t.cause = none ∧ t.info = 0#9) : t.InvAt p where
  memory := hm
  pcRange := hpc
  flags := hfl
  noRecord _ := hrec
  record hf := by simp [hr] at hf
  atHlt hh := by simp [hr] at hh

/-- A state that keeps the status of a Running state with the invariant meets it when its memory, `pc` and flags do. -/
theorem State.InvAt.of_sameStatus (h : s.InvAt p) (hr : s.run = .running) (hst : SameStatus s t) (hm : t.mem.wf)
    (hpc : t.pc.toNat ≤ 256) (hfl : flagsLegalWith p.flags t.fl) : t.InvAt p := by
  obtain ⟨hcause, hinfo⟩ := h.noRecord (by simp [hr])
  exact .of_running (hst.run.trans hr) hm hpc hfl ⟨hst.cause.trans hcause, hst.info.trans hinfo⟩

/-- An exception keeps the invariant when it records what happened at `pc`: it changes nothing else (60_exceptions.md R113). -/
theorem State.InvAt.takeException (h : s.InvAt p) {e : Exc} (hrec : (takeException e s).faultRecordOk p.opc) :
    (takeException e s).InvAt p where
  memory := h.memory
  pcRange := h.pcRange
  flags := h.flags
  noRecord hn := absurd (takeException_run e s) hn
  record _ := hrec
  atHlt hh := by simp at hh

/-- Halting at a HLT keeps the invariant (44_control.md R106). -/
theorem State.InvAt.halt (h : s.InvAt p) (hr : s.run = .running) (hpc : s.pc.toNat ≤ 253)
    (hd : decodeWindow p.opc s.windowBytes = some .hlt) : s.halt.InvAt p where
  memory := h.memory
  pcRange := h.pcRange
  flags := h.flags
  noRecord _ := h.noRecord (by simp [hr])
  record hf := by simp at hf
  atHlt _ := ⟨hpc, hd⟩

/-- The exception of fetch or dispatch records what happened at `pc` (60_exceptions.md R112, R114). -/
theorem faultRecordOk_fetchInstrWith_error {e : Exc} (hpc : s.pc.toNat ≤ 256) (he : fetchInstrWith p.opc s = .error e) :
    (takeException e s).faultRecordOk p.opc := by
  rcases fetchInstrWith_error hpc he with ⟨hout, rfl⟩ | ⟨hin, hnone, rfl⟩
  · exact ⟨hout, rfl⟩
  · exact ⟨hin, fun ⟨m, hm⟩ => decodeWindow_none.1 hnone m hm, ofNat9_byte _⟩

/-- The exception of a bad register operand records the first bad operand of the instruction at `pc` (30_encoding.md R53). -/
theorem faultRecordOk_badOperand {i : Instr} {b : Byte} (hpc : s.pc.toNat ≤ 253)
    (hd : decodeWindow p.opc s.windowBytes = some i) (hb : i.firstBadOperand = some b) :
    (badOperand b s).faultRecordOk p.opc :=
  ⟨hpc, i, b, hd, hb, ofNat9_byte b⟩

/-- The instruction decoded at `pc` keeps the invariant, whichever of its outcomes it has. -/
theorem execAt_invAt {i : Instr} (h : s.InvAt p) (hr : s.run = .running) (hpc : s.pc.toNat ≤ 253)
    (hd : decodeWindow p.opc s.windowBytes = some i) (he : execAt p i s = .next t) : t.InvAt p := by
  have advance {n : Nat} (hn : n ≤ 3) : (s.pc + BitVec.ofNat 9 n).toNat ≤ 256 := by rw [advance_toNat hpc hn]; omega
  have target (b : Byte) : (zext9 b).toNat ≤ 256 := by rw [zext9_toNat]; omega
  have stored (v : Byte) : (s.mem.write s.decSp.sp.toNat v).wf := wf_write h.memory s.decSp.sp.isLt v
  rcases execAt_cases p i s t he with ⟨b, v, r, -, -, rfl⟩ | ⟨rfl, rfl⟩ | ⟨b, r, -, -, rfl⟩ | ⟨b, c, r, q, -, -, -, rfl⟩ |
    ⟨b, c, r, q, -, -, -, rfl⟩ | ⟨b, r, -, -, rfl⟩ | ⟨b, r, -, -, rfl⟩ | ⟨b, r, -, -, rfl⟩ | ⟨-, rfl⟩ | ⟨b, hb, -, rfl⟩
  · exact h.of_sameStatus hr ⟨rfl, rfl, rfl⟩ h.memory (advance le_rfl) h.flags
  · exact h.halt hr hpc hd
  · exact h.of_sameStatus hr ⟨rfl, rfl, rfl⟩ h.memory (advance (by omega)) h.flags
  · exact h.of_sameStatus hr ⟨rfl, rfl, rfl⟩ h.memory (advance le_rfl) h.flags
  · exact h.of_sameStatus hr ⟨rfl, rfl, rfl⟩ h.memory (advance le_rfl) (flagsLegalWith_compareFlags _ _ _)
  · exact h.of_sameStatus hr ⟨rfl, rfl, rfl⟩ (stored _) (advance (by omega)) h.flags
  · exact h.of_sameStatus hr ⟨rfl, rfl, rfl⟩ h.memory (advance (by omega)) h.flags
  · exact h.of_sameStatus hr ⟨rfl, rfl, rfl⟩ (stored _) (target _) h.flags
  · exact h.of_sameStatus hr ⟨rfl, rfl, rfl⟩ h.memory (target _) h.flags
  · exact h.takeException (faultRecordOk_badOperand hpc hd hb)

/-- Every step keeps the invariant, under any parameters. -/
theorem stepAt_invAt (h : s.InvAt p) (hs : stepAt p s = .next t) : t.InvAt p := by
  rcases stepAt_cases hs with ⟨-, rfl⟩ | ⟨-, e, he, rfl⟩ | ⟨hr, i, hi, he⟩
  · exact h
  · exact h.takeException (faultRecordOk_fetchInstrWith_error h.pcRange he)
  · obtain ⟨hpc, hd⟩ := fetchInstrWith_ok hi
    exact execAt_invAt h hr hpc hd he

/-- The reset state meets the invariant where `FL_RESET` is 0 (10_state.md R18, R25). -/
theorem resetAt_invAt (hfl : p.flReset = 0#8) : (State.resetAt p).InvAt p :=
  .of_running rfl (wf_filled p.memFill) (by simp) (.inl hfl) ⟨rfl, rfl⟩

/-- A load into a Running machine keeps the invariant: it writes cells of the memory only (70_reset_and_hazards.md R132). -/
theorem load_invAt {img : List Nat} (h : s.InvAt p) (hr : s.run = .running) (hl : load img s = some t) : t.InvAt p := by
  obtain ⟨⟨hlen, -⟩, rfl⟩ := load_some hl
  exact h.of_sameStatus hr ⟨rfl, rfl, rfl⟩ (wf_writeFrom h.memory (by simpa using hlen)) h.pcRange h.flags

end Invariant

section Load
variable {img : List Nat} {s t : State}

/-- After a load, element `a` of the image is in cell `a`. -/
theorem load_read_image (hl : load img s = some t) {a : Nat} (ha : a < img.length) : (t.mem.read a).toNat = img[a] := by
  obtain ⟨⟨-, hbytes⟩, rfl⟩ := load_some hl
  have hbyte : img[a] < 256 := hbytes _ (List.getElem_mem ha)
  simp [read_writeFrom, ha, Nat.mod_eq_of_lt hbyte]

/-- A load leaves every cell beyond the image as it was. -/
theorem load_read_beyond (hl : load img s = some t) {a : Nat} (ha : img.length ≤ a) : t.mem.read a = s.mem.read a := by
  obtain ⟨-, rfl⟩ := load_some hl
  simp [read_writeFrom, Nat.not_lt.2 ha]

end Load

end Sys2Proof.Machine
end

section
namespace Sys2Proof.Machine

/-- Settles O55: every step answers, and keeps the invariant by cases on what a step can be. -/
theorem invariantUnderAnyParameters : Obligations.InvariantUnderAnyParameters := by
  intro p s h
  obtain ⟨t, ht⟩ := stepAt_answers p s
  exact ⟨t, ht, stepAt_invAt h ht⟩

/-- Settles O57: the reset state meets the invariant, and the load keeps it and writes the image over the fill. -/
theorem bootUnderAnyParameters : Obligations.BootUnderAnyParameters := by
  rintro p img s ⟨-, -, hfl, -⟩ hboot
  have hl : load img (State.resetAt p) = some s := hboot
  obtain ⟨-, hs⟩ := load_some hl
  refine ⟨load_invAt (resetAt_invAt hfl) rfl hl, hs ▸ rfl, hs ▸ rfl, hs ▸ sp_resetAt p, hs ▸ rfl,
    fun a ha => load_read_image hl ha, fun a ha hcell => ?_⟩
  rw [load_read_beyond hl ha, resetAt_mem, read_filled _ hcell]

/-- Settles O51: the model's laws `exec_eq_execAt` and `step_eq_stepAt`; the defaults are legal by their values. -/
theorem defaultsInstantiateParametricMachine : Obligations.DefaultsInstantiateParametricMachine :=
  ⟨exec_eq_execAt, step_eq_stepAt, fun _ => rfl, fun _ => rfl, params_legal⟩

/-- Settles O52: inside the fetch window the step is decided by the decoding of the bytes at `pc`. -/
theorem stepUnderAnyOpcodeMap : Obligations.StepUnderAnyOpcodeMap := by
  intro p s hr hpc
  have hfetch : fetchInstrWith p.opc s = dispatchWith p.opc s.windowBytes := fetchInstrWith_inside hpc
  refine ⟨fun i hd => stepAt_of_fetchInstrWith_ok hr (hfetch.trans (dispatchWith_some hd)), fun hunknown => ?_⟩
  have hnone : decodeWindow p.opc s.windowBytes = none := decodeWindow_none.2 fun m hm => hunknown ⟨m, hm⟩
  rw [stepAt_of_fetchInstrWith_error hr (hfetch.trans (dispatchWith_none hnone)), takeException, ofNat9_byte]
  rfl

/-- Settles O53: MUL is given the flag values, but its operation does not read them. -/
theorem onlyCmpReadsParameters : Obligations.OnlyCmpReadsParameters := by
  intro p i s hcmp
  cases i with
  | cmp a b => exact absurd rfl (hcmp a b)
  | _ => rfl

/-- Settles O54: CMP is one write of the flags byte and the advance of `pc`; the comparison has a lemma for each ordering. -/
theorem cmpUnderAnyFlagValues : Obligations.CmpUnderAnyFlagValues := by
  intro p s regA regB a b ha hb
  exact ⟨_, execCmpWith_valid s p.flags ha hb, compareFlags_of_eq p.flags, compareFlags_of_lt p.flags,
    compareFlags_of_gt p.flags, fun ⟨_, hflags, _⟩ => compareFlags_one_bit _ _ hflags, fun _ => rfl,
    fun hpc => advance_toNat hpc le_rfl, fun _ => rfl, ⟨rfl, rfl, rfl⟩, rfl⟩

/-- Settles O56: the reset state field by field, each cell of memory as `Memory.filled` gives it. -/
theorem resetUnderAnyParameters : Obligations.ResetUnderAnyParameters := by
  intro p s
  refine ⟨sp_resetAt p, rfl, rfl, rfl, rfl, rfl, fun r hr => ?_, rfl, fun a ha => read_filled p.memFill ha⟩
  exact (reg_resetAt p r).trans (if_neg hr)

end Sys2Proof.Machine
end

section
/-!
What an instruction leaves of each component of the state, as the statements of 10_state.md need it: the registers that are not
`SP`, the outcome of an ill-formed instruction, the output, and that nothing reads the flags, the fault record or the output.
-/
namespace Sys2Proof.Machine

section Registers
variable (s : State) {k : RegIndex}

theorem reg_decSp_ne (h : k ≠ Config.spIndex) : s.decSp.reg k = s.reg k := (reg_decSp s k).trans (if_neg h)

theorem reg_incSp_ne (h : k ≠ Config.spIndex) : s.incSp.reg k = s.reg k := (reg_incSp s k).trans (if_neg h)

/-- The decrement of `SP` counts down, but for 0 (10_state.md R13). -/
theorem sp_decSp_toNat (h : s.sp ≠ 0#8) : s.decSp.sp.toNat = s.sp.toNat - 1 := by
  have hne : s.sp.toNat ≠ 0 := fun e => h (BitVec.eq_of_toNat_eq e)
  have hlt := s.sp.isLt
  rw [sp_decSp, trunc8_pred_toNat]
  omega

/-- The increment of `SP` counts up, but for 255 (10_state.md R13). -/
theorem sp_incSp_toNat (h : s.sp ≠ 255#8) : s.incSp.sp.toNat = s.sp.toNat + 1 := by
  have hne : s.sp.toNat ≠ 255 := fun e => h (BitVec.eq_of_toNat_eq e)
  have hlt := s.sp.isLt
  rw [sp_incSp, trunc8_succ_toNat]
  omega

end Registers

section Operands
variable {b : Byte} {r q : RegIndex}

/-- A byte names at most one register. -/
theorem Names.unique (hr : Names b r) (hq : Names b q) : r = q := Fin.ext (hr.symm.trans hq)

theorem validRegOperand_of_names (h : Names b r) : validRegOperand b = true := decide_eq_true (h ▸ r.isLt)

theorem exists_names_of_validRegOperand (h : validRegOperand b = true) : ∃ r, Names b r :=
  ⟨⟨b.toNat, of_decide_eq_true h⟩, rfl⟩

end Operands

section IllFormed
variable {i : Instr} {b : Byte}

/-- An instruction whose first bad operand is `b` takes `RegisterIndex(b)` and does nothing else (30_encoding.md R53). -/
theorem exec_of_firstBadOperand (h : i.firstBadOperand = some b) (s : State) : exec i s = .next (badOperand b s) := by
  obtain ⟨t, ht⟩ := execAt_answers Config.params i s
  rw [← exec_eq_execAt] at ht
  have named {c : Byte} {r : RegIndex} (hc : Names c r) := validRegOperand_of_names hc
  rcases exec_cases i s t ht with ⟨c, v, r, rfl, hc, -⟩ | ⟨rfl, -⟩ | ⟨c, r, rfl, hc, -⟩ | ⟨c, d, r, q, rfl, hc, hd, -⟩ |
    ⟨c, d, r, q, rfl, hc, hd, -⟩ | ⟨c, r, rfl, hc, -⟩ | ⟨c, r, rfl, hc, -⟩ | ⟨c, r, rfl, hc, -⟩ | ⟨rfl, -⟩ | ⟨c, hc, -, rfl⟩
  · simp [Instr.firstBadOperand, Instr.regOperands, named hc] at h
  · simp [Instr.firstBadOperand, Instr.regOperands] at h
  · simp [Instr.firstBadOperand, Instr.regOperands, named hc] at h
  · simp [Instr.firstBadOperand, Instr.regOperands, named hc, named hd] at h
  · simp [Instr.firstBadOperand, Instr.regOperands, named hc, named hd] at h
  · simp [Instr.firstBadOperand, Instr.regOperands, named hc] at h
  · simp [Instr.firstBadOperand, Instr.regOperands, named hc] at h
  · simp [Instr.firstBadOperand, Instr.regOperands, named hc] at h
  · simp [Instr.firstBadOperand, Instr.regOperands] at h
  · rw [ht, Option.some.inj (hc.symm.trans h)]

/-- An ill-formed instruction takes an exception for one of its operands. -/
theorem exec_of_illFormed (h : i.wellFormed = false) {s t : State} (he : exec i s = .next t) : ∃ b, t = badOperand b s := by
  have hbad : i.firstBadOperand ≠ none := fun hn => by simp [i.wellFormed_iff.2 hn] at h
  obtain ⟨b, hb⟩ := Option.ne_none_iff_exists'.1 hbad
  exact ⟨b, Host.Outcome.next.inj (he.symm.trans (exec_of_firstBadOperand hb s))⟩

end IllFormed

section Flags
variable {c : Config.FlagCodes}

/-- A comparison never leaves the flags at 0, the value of 'no comparison yet' (10_state.md R18). -/
theorem compareFlags_ne_zero (hc : c.Legal) (x y : Byte) : compareFlags c x y ≠ 0#8 := by
  rcases compareFlags_one_bit x y hc with h | h | h <;> rw [h] <;> decide

variable {i : Instr} {s t : State}

/-- An instruction other than CMP leaves `FL`. -/
theorem exec_fl_of_not_cmp (hcmp : ∀ a b, i ≠ .cmp a b) (h : exec i s = .next t) : t.fl = s.fl := by
  rcases exec_cases i s t h with ⟨b, v, r, -, -, rfl⟩ | ⟨-, rfl⟩ | ⟨b, r, -, -, rfl⟩ | ⟨b, c, r, q, -, -, -, rfl⟩ |
    ⟨b, c, r, q, hi, -⟩ | ⟨b, r, -, -, rfl⟩ | ⟨b, r, -, -, rfl⟩ | ⟨b, r, -, -, rfl⟩ | ⟨-, rfl⟩ | ⟨b, -, -, rfl⟩
  -- the outcome of CMP
  case inr.inr.inr.inr.inl => exact absurd hi (hcmp b c)
  all_goals rfl

/-- A well-formed CMP leaves in `FL` the comparison of two registers. -/
theorem exec_fl_of_cmp {a b : Byte} (hwf : (Instr.cmp a b).wellFormed = true) (h : exec (.cmp a b) s = .next t) :
    ∃ x y, t.fl = compareFlags Config.flags x y := by
  have hvalid : validRegOperand a = true ∧ validRegOperand b = true := by
    simpa [Instr.wellFormed, Instr.regOperands] using hwf
  obtain ⟨r, hr⟩ := exists_names_of_validRegOperand hvalid.1
  obtain ⟨q, hq⟩ := exists_names_of_validRegOperand hvalid.2
  obtain rfl := Host.Outcome.next.inj (h.symm.trans (execCmp_valid s hr hq))
  exact ⟨s.reg r, s.reg q, rfl⟩

end Flags

section Output
variable {i : Instr} {s t : State}

/-- What an instruction can do to the output, once: nothing, or, for PRN, append the register it names (10_state.md R22). -/
theorem exec_out_cases (h : exec i s = .next t) :
    t.out = s.out ∨ ∃ b r, i = .prn b ∧ Names b r ∧ t = (s.emit (s.reg r)).advancePc 2 := by
  rcases exec_cases i s t h with ⟨b, v, r, -, -, rfl⟩ | ⟨-, rfl⟩ | hprn | ⟨b, c, r, q, -, -, -, rfl⟩ |
    ⟨b, c, r, q, -, -, -, rfl⟩ | ⟨b, r, -, -, rfl⟩ | ⟨b, r, -, -, rfl⟩ | ⟨b, r, -, -, rfl⟩ | ⟨-, rfl⟩ | ⟨b, -, -, rfl⟩
  -- the outcome of PRN
  case inr.inr.inl => exact .inr hprn
  all_goals exact .inl rfl

theorem exec_extends_out (h : exec i s = .next t) : s.out <+: t.out := by
  rcases exec_out_cases h with hout | ⟨b, r, -, -, rfl⟩
  · exact ⟨[], (List.append_nil _).trans hout.symm⟩
  · exact ⟨[s.reg r], rfl⟩

/-- A step only extends the output, at its end: the exceptions of fetch and dispatch do not touch it. -/
theorem step_extends_out (h : step s = .next t) : s.out <+: t.out := by
  rcases step_cases h with ⟨-, rfl⟩ | ⟨-, e, -, rfl⟩ | ⟨i, -, he⟩
  · exact ⟨[], List.append_nil _⟩
  · exact ⟨[], List.append_nil _⟩
  · exact exec_extends_out he

theorem emittedSince_of_append {l : List Byte} (h : t.out = s.out ++ l) : emittedSince s t = l := by
  simp [emittedSince, h]

/-- No instruction reads the output: with another earlier output it completes in the same state, but for that output. -/
theorem exec_withOut (h : exec i s = .next t) (o : List Byte) :
    exec i { s with out := o } = .next { t with out := o ++ emittedSince s t } := by
  rcases exec_out_cases h with hout | ⟨b, r, rfl, hr, rfl⟩
  · rw [emittedSince_of_append (l := []) (by simpa using hout), List.append_nil]
    rcases exec_cases i s t h with ⟨b, v, r, rfl, hr, rfl⟩ | ⟨rfl, rfl⟩ | ⟨b, r, -, -, rfl⟩ |
      ⟨b, c, r, q, rfl, hr, hq, rfl⟩ | ⟨b, c, r, q, rfl, hr, hq, rfl⟩ | ⟨b, r, rfl, hr, rfl⟩ | ⟨b, r, rfl, hr, rfl⟩ |
      ⟨b, r, rfl, hr, rfl⟩ | ⟨rfl, rfl⟩ | ⟨b, hb, -, rfl⟩
    · exact execLdi_valid _ hr v
    · rfl
    · simp at hout
    · exact execMul_valid _ hr hq
    · exact execCmp_valid _ hr hq
    · exact execPush_valid _ hr
    · exact execPop_valid _ hr
    · exact execCall_valid _ hr
    · exact execRet_eq _
    · exact exec_of_firstBadOperand hb _
  · rw [emittedSince_of_append (l := [s.reg r]) rfl]
    exact execPrn_valid _ hr

end Output

section Status

/-- The state with any other flags, fault record and output. -/
def State.withStatus (s : State) (fl : Byte) (cause : Option Cause) (info : Word9) (out : List Byte) : State :=
  { s with fl := fl, cause := cause, info := info, out := out }

/-- Two states agree in everything that decides how execution goes on. -/
structure SameExecution (s t : State) : Prop where
  x : t.x = s.x
  pc : t.pc = s.pc
  mem : t.mem = s.mem
  run : t.run = s.run

variable {s t : State} (fl : Byte) (cause : Option Cause) (info : Word9) (out : List Byte)

/-- Fetch and dispatch read `pc` and memory only. -/
theorem fetchInstr_withStatus : fetchInstr (s.withStatus fl cause info out) = fetchInstr s := rfl

/-- No instruction reads the flags, the fault record or the output (10_state.md R18, R19, R22). -/
theorem exec_withStatus {i : Instr} (h : exec i s = .next t) :
    ∃ u, exec i (s.withStatus fl cause info out) = .next u ∧ SameExecution t u := by
  rcases exec_cases i s t h with ⟨b, v, r, rfl, hr, rfl⟩ | ⟨rfl, rfl⟩ | ⟨b, r, rfl, hr, rfl⟩ |
    ⟨b, c, r, q, rfl, hr, hq, rfl⟩ | ⟨b, c, r, q, rfl, hr, hq, rfl⟩ | ⟨b, r, rfl, hr, rfl⟩ | ⟨b, r, rfl, hr, rfl⟩ |
    ⟨b, r, rfl, hr, rfl⟩ | ⟨rfl, rfl⟩ | ⟨b, hb, -, rfl⟩
  · exact ⟨_, execLdi_valid _ hr v, rfl, rfl, rfl, rfl⟩
  · exact ⟨_, rfl, rfl, rfl, rfl, rfl⟩
  · exact ⟨_, execPrn_valid _ hr, rfl, rfl, rfl, rfl⟩
  · exact ⟨_, execMul_valid _ hr hq, rfl, rfl, rfl, rfl⟩
  · exact ⟨_, execCmp_valid _ hr hq, rfl, rfl, rfl, rfl⟩
  · exact ⟨_, execPush_valid _ hr, rfl, rfl, rfl, rfl⟩
  · exact ⟨_, execPop_valid _ hr, rfl, rfl, rfl, rfl⟩
  · exact ⟨_, execCall_valid _ hr, rfl, rfl, rfl, rfl⟩
  · exact ⟨_, execRet_eq _, rfl, rfl, rfl, rfl⟩
  · exact ⟨_, exec_of_firstBadOperand hb _, rfl, rfl, rfl, rfl⟩

/-- Nor does a step read them. -/
theorem step_withStatus (h : step s = .next t) :
    ∃ u, step (s.withStatus fl cause info out) = .next u ∧ SameExecution t u := by
  rcases step_cases h with ⟨hr, rfl⟩ | ⟨hr, e, he, rfl⟩ | ⟨i, ⟨hr, hi⟩, he⟩
  · exact ⟨_, step_of_terminal hr, rfl, rfl, rfl, rfl⟩
  · exact ⟨_, step_of_raise hr ((fetchInstr_withStatus fl cause info out).trans he), rfl, rfl, rfl, rfl⟩
  · have hex : (s.withStatus fl cause info out).Executes i :=
      ⟨hr, (fetchInstr_withStatus fl cause info out).trans hi⟩
    rw [step_of_executes hex]
    exact exec_withStatus fl cause info out he

end Status

section Runs

/-- A run of `n + 1` steps that answers is a step that answers and a run of `n` steps. -/
theorem run_succ_cases {M : Host.Core} {n : Nat} {s t : M.State} (h : M.run (n + 1) s = .next t) :
    ∃ u, M.step s = .next u ∧ M.run n u = .next t := by
  rw [Host.Core.run] at h
  split at h
  · next u hu => exact ⟨u, hu, h⟩
  · cases h
  · cases h

variable {n : Nat} {s t : State}

theorem run_extends_out (h : core.run n s = .next t) : s.out <+: t.out := by
  induction n generalizing s with
  | zero =>
    obtain rfl : s = t := Host.Outcome.next.inj h
    exact ⟨[], List.append_nil _⟩
  | succ n ih =>
    obtain ⟨u, hu, hrest⟩ := run_succ_cases h
    exact (step_extends_out hu).trans (ih hrest)

/-- A run from a terminal state stays there (40_engine.md R71). -/
theorem run_of_terminal (hr : s.run ≠ .running) (h : core.run n s = .next t) : t = s := by
  induction n with
  | zero => exact (Host.Outcome.next.inj h).symm
  | succ n ih =>
    obtain ⟨u, hu, hrest⟩ := run_succ_cases h
    obtain rfl : s = u := Host.Outcome.next.inj ((step_of_terminal hr).symm.trans hu)
    exact ih hrest

end Runs

end Sys2Proof.Machine
end

section
namespace Sys2Proof.Machine

/-- Settles O40: the invariant under any parameters, at the defaults. -/
theorem stepKeepsInvariant : Obligations.StepKeepsInvariant :=
  fun s _ hinv h => stepAt_invAt hinv ((step_eq_stepAt s).symm.trans h)

/-- Settles O33: each outcome of `exec` writes the registers of its row, and a byte names one register only. -/
theorem registerFrame : Obligations.RegisterFrame := by
  intro i s t h k hk
  rcases exec_cases i s t h with ⟨b, v, r, rfl, hr, rfl⟩ | ⟨rfl, rfl⟩ | ⟨b, r, rfl, -, rfl⟩ |
    ⟨b, c, r, q, rfl, hr, -, rfl⟩ | ⟨b, c, r, q, rfl, -, -, rfl⟩ | ⟨b, r, rfl, -, rfl⟩ | ⟨b, r, rfl, hr, rfl⟩ |
    ⟨b, r, rfl, -, rfl⟩ | ⟨rfl, rfl⟩ | ⟨b, -, -, rfl⟩
  · exact reg_setReg_ne s _ fun e => hk (e ▸ hr)
  · rfl
  · rfl
  · exact reg_setReg_ne s _ fun e => hk (e ▸ hr)
  · rfl
  · exact reg_decSp_ne s hk
  · obtain ⟨hname, hsp⟩ := not_or.1 hk
    calc
      _ = (s.setReg r _).reg k := reg_incSp_ne _ hsp
      _ = s.reg k := reg_setReg_ne s _ fun e => hname (e ▸ hr)
  · exact reg_decSp_ne s hk
  · exact reg_incSp_ne _ hk
  · rfl

/-- Settles O35: only CMP's outcome writes `FL`, with a comparison; an exception keeps it. -/
theorem flagsWrittenOnlyByCmp : Obligations.FlagsWrittenOnlyByCmp := by
  intro i s t h
  refine ⟨fun hcmp => exec_fl_of_not_cmp hcmp h, fun a b hi hwf => ?_, fun hwf => ?_⟩
  · subst hi
    obtain ⟨x, y, hfl⟩ := exec_fl_of_cmp hwf h
    rw [hfl]
    exact ⟨compareFlags_ne_zero (by decide) x y, flagsLegalWith_compareFlags _ x y⟩
  · obtain ⟨b, rfl⟩ := exec_of_illFormed hwf h
    rfl

/-- Settles O36: PRN's outcome appends, the others keep the output, and no outcome reads it. -/
theorem outputWrittenOnlyByPrn : Obligations.OutputWrittenOnlyByPrn := by
  intro i s t h
  refine ⟨fun reg r hi hr => ?_, fun hprn => ?_, exec_withOut h⟩
  · subst hi
    obtain rfl := Host.Outcome.next.inj (h.symm.trans (execPrn_valid s hr))
    rfl
  · rcases exec_out_cases h with hout | ⟨b, r, hi, -⟩
    · exact hout
    · exact absurd hi (hprn b)

/-- Settles O37: each outcome of `exec` sets `pc` in one way, and the advance is exact inside the fetch window. -/
theorem pcAfterEachInstruction : Obligations.PcAfterEachInstruction := by
  intro i s t hpc h
  refine ⟨fun hwf => ?_, fun hwf => ?_⟩
  · obtain ⟨b, rfl⟩ := exec_of_illFormed hwf h
    rfl
  · rcases exec_cases i s t h with ⟨b, v, r, rfl, -, rfl⟩ | ⟨rfl, rfl⟩ | ⟨b, r, rfl, -, rfl⟩ |
      ⟨b, c, r, q, rfl, -, -, rfl⟩ | ⟨b, c, r, q, rfl, -, -, rfl⟩ | ⟨b, r, rfl, -, rfl⟩ | ⟨b, r, rfl, -, rfl⟩ |
      ⟨b, r, rfl, hr, rfl⟩ | ⟨rfl, rfl⟩ | ⟨b, hb, -, -⟩
    · exact advance_toNat hpc le_rfl
    · rfl
    · exact advance_toNat hpc (by omega)
    · exact advance_toNat hpc le_rfl
    · exact advance_toNat hpc le_rfl
    · exact advance_toNat hpc (by omega)
    · exact advance_toNat hpc (by omega)
    · intro q hq
      rw [Names.unique hq hr]
      exact zext9_toNat _
    · exact zext9_toNat _
    · simp [i.wellFormed_iff.1 hwf] at hb

/-- Settles O38: neither fetch and dispatch nor an instruction reads the flags, the fault record or the output. -/
theorem statusNeverSteersExecution : Obligations.StatusNeverSteersExecution := by
  intro s t fl cause info out h
  obtain ⟨u, hu, hx, hpc, hmem, hrun⟩ := step_withStatus fl cause info out h
  exact ⟨u, hu, hx, hpc, hmem, hrun⟩

/-- Settles O43, by induction on the number of steps. -/
theorem runsOnlyExtendOutput : Obligations.RunsOnlyExtendOutput := by
  intro n s t h
  obtain ⟨more, hmore⟩ := run_extends_out h
  exact ⟨⟨more, hmore.symm⟩, fun hr => run_of_terminal hr h⟩

/-- Settles O32: both updates of `SP` are truncated to a byte and write register 7 only. -/
theorem stackPointerWraps : Obligations.StackPointerWraps := by
  intro s
  refine ⟨fun h => ?_, fun h => ?_, sp_decSp_toNat s, sp_incSp_toNat s, fun _ => reg_decSp_ne s, fun _ => reg_incSp_ne s,
    rfl, rfl, rfl, rfl⟩
  · rw [sp_decSp, h]; rfl
  · rw [sp_incSp, h]; rfl

/-- Settles O44: the reset under any parameters, at the defaults; where the fill is 0 memory lists no cell. -/
theorem resetValues : Obligations.ResetValues := by
  intro s
  obtain ⟨hsp, hpc, hrun, hout, hcause, hinfo, hregs, hfl, -⟩ := resetUnderAnyParameters Config.params s
  exact ⟨rfl, hsp, hpc, hrun, hout, hcause, hinfo, hregs, hfl, fun _ => rfl⟩

/-- Settles O47: the exit status is read off the run state. -/
theorem exitStatusOfTerminalStates : Obligations.ExitStatusOfTerminalStates := by
  intro s exitFault hne
  refine ⟨fun h => ?_, fun h => ⟨exitFault, ?_, hne⟩, fun h => ?_⟩ <;> simp [exitStatus, h]

end Sys2Proof.Machine
end

section
/-!
What the memory holds after an instruction, as the statements of 20_memory.md need it: the one cell that PUSH or CALL stores to,
and that a fetch that succeeds gives the cells of its window.
-/
namespace Sys2Proof.Machine

section Memory
variable {i : Instr} {s t : State}

/-- What an instruction can do to memory, once: nothing, or one write, to the address it stores to (20_memory.md R31). -/
theorem exec_mem_cases (h : exec i s = .next t) :
    t.mem = s.mem ∨ ∃ a v, storeAddress i s = some a ∧ t.mem = s.mem.write a v := by
  rcases exec_cases i s t h with ⟨b, v, r, -, -, rfl⟩ | ⟨-, rfl⟩ | ⟨b, r, -, -, rfl⟩ | ⟨b, c, r, q, -, -, -, rfl⟩ |
    ⟨b, c, r, q, -, -, -, rfl⟩ | ⟨b, r, rfl, -, rfl⟩ | ⟨b, r, -, -, rfl⟩ | ⟨b, r, rfl, -, rfl⟩ | ⟨-, rfl⟩ | ⟨b, -, -, rfl⟩
  -- the outcome of PUSH
  case inr.inr.inr.inr.inr.inl => exact .inr ⟨_, s.decSp.reg r, rfl, rfl⟩
  -- the outcome of CALL
  case inr.inr.inr.inr.inr.inr.inr.inl => exact .inr ⟨_, returnByte s.pc, rfl, rfl⟩
  all_goals exact .inl rfl

variable {b : Byte} {r : RegIndex}

/-- After PUSH the cell that `SP` points to holds the register as it then reads, `SP` itself included (43_stack.md R95, R97). -/
theorem read_sp_of_push (hr : Names b r) (h : exec (.push b) s = .next t) : t.mem.read t.sp.toNat = t.reg r := by
  obtain rfl := Host.Outcome.next.inj (h.symm.trans (execPush_valid s hr))
  exact read_write_same s.mem s.decSp.sp.toNat (s.decSp.reg r)

/-- After CALL the cell that `SP` points to holds the return byte (44_control.md R101). -/
theorem read_sp_of_call (hr : Names b r) (h : exec (.call b) s = .next t) : t.mem.read t.sp.toNat = returnByte s.pc := by
  obtain rfl := Host.Outcome.next.inj (h.symm.trans (execCall_valid s hr))
  exact read_write_same s.mem s.decSp.sp.toNat (returnByte s.pc)

end Memory

section Fetching
variable {s : State}

/-- A fetch that succeeds gives the three cells of its window (40_engine.md R66). -/
theorem eq_windowBytes_of_fetch_ok {w : FetchWindow} (h : fetch s = .ok w) : w = s.windowBytes := by
  by_cases hpc : s.pc.toNat ≤ 253
  · exact Except.ok.inj (h.symm.trans (fetch_inside hpc))
  · exfalso
    by_cases hcell : s.pc.toNat < 256
    · rw [fetch_outside (by omega) (by omega)] at h
      cases h
    · simp [fetch, memRead_outside (Nat.not_lt.1 hcell)] at h

/-- A fetch from a legal `pc` can raise only `OutOfBounds(256)` (20_memory.md R32). -/
theorem fetch_error {e : Exc} (hpc : s.pc.toNat ≤ 256) (h : fetch s = .error e) : e = ⟨.outOfBounds, 256⟩ := by
  by_cases hw : s.pc.toNat ≤ 253
  · rw [fetch_inside hw] at h
    cases h
  · exact Except.error.inj (h.symm.trans (fetch_outside (by omega) hpc))

end Fetching

end Sys2Proof.Machine
end

section
namespace Sys2Proof.Machine

/-- Settles O34: an instruction writes no cell, or the one it stores to. -/
theorem memoryFrame : Obligations.MemoryFrame := by
  intro i s t h a ha
  rcases exec_mem_cases h with hmem | ⟨b, v, hstore, hmem⟩
  · rw [hmem]
  · have hne : a ≠ b := fun e => ha (e ▸ hstore)
    rw [hmem, read_write_ne _ hne]

/-- Settles O39: the cell at the new `SP` holds the stored byte, and the next fetch reads its window from memory. -/
theorem storedByteIsFetchedNext : Obligations.StoredByteIsFetchedNext := by
  intro s t i v w hex hstep hfetch hstored
  have hexec : exec i s = .next t := (step_of_executes hex).symm.trans hstep
  have hv : t.mem.read t.sp.toNat = v := by
    rcases hstored with ⟨reg, r, rfl, hr, rfl⟩ | ⟨reg, r, rfl, hr, hv⟩
    · exact read_sp_of_push hr hexec
    · obtain ⟨hpc, -⟩ := fetchInstr_ok hex.2
      rw [read_sp_of_call hr hexec]
      exact BitVec.eq_of_toNat_eq ((returnByte_toNat hpc).trans hv.symm)
  obtain rfl := eq_windowBytes_of_fetch_ok hfetch
  have hcell {a : Nat} (e : t.sp.toNat = a) : t.mem.read a = v := e ▸ hv
  exact ⟨hcell, hcell, hcell⟩

/-- Settles O30: the model's laws about the checked read, and what a fetch can raise. -/
theorem memReadChecksBounds : Obligations.MemReadChecksBounds :=
  ⟨fun _ s => ⟨fun h => memRead_outside h s, fun h => memRead_cell h s⟩, fun s => ⟨_, memRead_byte s.sp s⟩,
    fun _ _ hpc h => fetch_error hpc h⟩

/-- Settles O31: a checked write inside memory is one store, which touches no other cell and nothing else. -/
theorem memWriteChecksBounds : Obligations.MemWriteChecksBounds := by
  refine ⟨fun a v s => ⟨fun h => memWrite_outside h v s, fun h => ?_⟩, fun v s => ⟨_, memWrite_byte s.sp v s⟩⟩
  exact ⟨s.store a v, memWrite_cell h v s, read_write_same s.mem a v, fun _ hne => read_write_ne s.mem hne v,
    fun _ => rfl, rfl, rfl, ⟨rfl, rfl, rfl⟩, rfl⟩

end Sys2Proof.Machine
end

section
/-!
What the statements of 30_encoding.md need: the decoder on three or more bytes and on the words of the default table, how many
byte values are no opcode, and the operand byte that `RegisterIndex` reports.
-/
namespace Sys2Proof

section Decoding
variable {opc : OpcodeMap} {opcode opa opb : Byte} {rest bytes : List Byte} {i : Instr}

/-- Three or more bytes decode as their fetch window does. -/
theorem decodeBytes_ok_of_decodeWindow (h : decodeWindow opc ⟨opcode, opa, opb⟩ = some i) :
    decodeBytes opc (opcode :: opa :: opb :: rest) = .ok i := by
  simp [decodeBytes, h]

/-- Only an opcode byte outside the table is rejected as unknown (30_encoding.md R57). -/
theorem decodeBytes_unknown_iff :
    decodeBytes opc (opcode :: opa :: opb :: rest) = .error (.unknownInstruction opcode) ↔
      decodeWindow opc ⟨opcode, opa, opb⟩ = none := by
  cases h : decodeWindow opc ⟨opcode, opa, opb⟩ <;> simp [decodeBytes, h]

/-- Bytes that decode are a row's opcode byte and two candidate operands, with any bytes after them. -/
theorem exists_row_of_decodeBytes_ok (h : decodeBytes opc bytes = .ok i) :
    ∃ m opa opb rest, bytes = opc m :: opa :: opb :: rest ∧ i = m.instr opa opb := by
  unfold decodeBytes at h
  split at h
  · next opcode opa opb rest =>
    split at h
    · next j hj =>
      obtain ⟨m, hm, rfl⟩ := Option.map_eq_some_iff.1 hj
      cases h
      exact ⟨m, opa, opb, rest, by rw [lookupOpcode_some hm], rfl⟩
    · cases h
  · cases h

/-- The row of an instruction builds it again from bytes that begin with its operands (30_encoding.md R50, R52). -/
theorem instr_eq_of_operands_append (h : i.operands ++ rest = opa :: opb :: bytes) : i.mnemonic.instr opa opb = i := by
  cases i <;> simp_all [Instr.operands, Instr.mnemonic, Mnemonic.instr]

/-- The operands of a row's instruction are the first of its two candidate operand bytes. -/
theorem operands_instr_isPrefix (m : Mnemonic) (opa opb : Byte) (rest : List Byte) :
    (m.instr opa opb).operands <+: opa :: opb :: rest := by
  cases m <;> simp [Instr.operands, Mnemonic.instr]

end Decoding

section TableWords
variable {nbits w : Nat}

/-- A table word whose low byte is a row's default opcode decodes to that row, with the next two bytes as its operands. -/
theorem decodeTableWord_row (m : Mnemonic) (h : tableByte nbits w 0 = Config.opc m) :
    decodeTableWord nbits w = some (m.instr (tableByte nbits w 1) (tableByte nbits w 2)) := by
  rw [decodeTableWord, decodeBytes_ok_of_decodeWindow (h ▸ decodeWindow_opc Machine.opc_injective m _ _)]

/-- A table word whose low byte is no default opcode decodes to nothing. -/
theorem decodeTableWord_none (h : ∀ m ∈ Mnemonic.all, Config.opc m ≠ tableByte nbits w 0) :
    decodeTableWord nbits w = none := by
  have hw : decodeWindow Config.opc ⟨tableByte nbits w 0, tableByte nbits w 1, tableByte nbits w 2⟩ = none :=
    decodeWindow_none.2 fun m => h m m.mem_all
  rw [decodeTableWord, decodeBytes_unknown_iff.2 hw]

end TableWords

section UnknownBytes
variable {opc : OpcodeMap}

/-- The lookup finds a row for exactly the byte values that are some row's opcode. -/
theorem lookupOpcode_ofNat_isSome_iff {n : Nat} (hn : n < 256) :
    (lookupOpcode opc (BitVec.ofNat 8 n)).isSome ↔ ∃ m, (opc m).toNat = n := by
  have heq (m : Mnemonic) : opc m = BitVec.ofNat 8 n ↔ (opc m).toNat = n := by
    rw [← BitVec.toNat_inj, BitVec.toNat_ofNat, Nat.mod_eq_of_lt hn]
  simp [Option.isSome_iff_ne_none, lookupOpcode_none, heq]

/-- Under every map with nine distinct bytes, 256 - 9 = 247 byte values are no opcode (30_encoding.md R57): the others are the
nine opcodes. -/
theorem length_filter_lookupOpcode_none (hi : opc.Injective) :
    ((List.range 256).filter fun n => lookupOpcode opc (BitVec.ofNat 8 n) == none).length = 247 := by
  have hknown : ((List.range 256).filter fun n => !(lookupOpcode opc (BitVec.ofNat 8 n) == none)).Perm
      (Mnemonic.all.map fun m => (opc m).toNat) := by
    refine (List.perm_ext_iff_of_nodup (List.nodup_range.filter _) ?_).2 fun n => ?_
    · exact List.Nodup.map (fun m n h => hi m n (BitVec.eq_of_toNat_eq h)) (by decide)
    · simp only [List.mem_filter, List.mem_range, List.mem_map, Mnemonic.mem_all, true_and]
      constructor
      · rintro ⟨hn, h⟩
        exact (lookupOpcode_ofNat_isSome_iff hn).1 (by simpa using h)
      · rintro ⟨m, rfl⟩
        exact ⟨(opc m).isLt, by simpa using (lookupOpcode_ofNat_isSome_iff (opc m).isLt).2 ⟨m, rfl⟩⟩
  have hsplit := List.length_eq_length_filter_add (l := List.range 256)
    fun n => lookupOpcode opc (BitVec.ofNat 8 n) == none
  rw [hknown.length_eq] at hsplit
  simpa [Mnemonic.all] using hsplit.symm

end UnknownBytes

section BadOperands
variable {i : Instr} {a b : Byte} {l : List Byte}

/-- A first register operand of 8 or more is the one reported. -/
theorem firstBadOperand_first (h : i.regOperands = b :: l) (hb : 8 ≤ b.toNat) : i.firstBadOperand = some b := by
  simp [Instr.firstBadOperand, h, validRegOperand, hb]

/-- A second register operand of 8 or more is reported when the first is valid. -/
theorem firstBadOperand_second (h : i.regOperands = a :: b :: l) (ha : a.toNat < 8) (hb : 8 ≤ b.toNat) :
    i.firstBadOperand = some b := by
  simp [Instr.firstBadOperand, h, validRegOperand, ha, hb]

end BadOperands

end Sys2Proof

namespace Sys2Proof.Machine

/-- The exception of a bad operand, with its record as the statements write it. -/
theorem badOperand_eq (b : Byte) (s : State) :
    badOperand b s = { s with run := .faulted, cause := some .registerIndex, info := zext9 b } := by
  simp only [badOperand, takeException, ofNat9_byte]

end Sys2Proof.Machine
end

section
namespace Sys2Proof.Machine

/-- Settles O1: after the opcode byte come the operands, and the row builds the instruction again from two bytes that begin
with them. -/
theorem decodeEncodeRoundTrip : Obligations.DecodeEncodeRoundTrip := by
  intro opc hi i rest hlen
  simp only [encode, List.cons_append] at hlen ⊢
  match hbytes : i.operands ++ rest with
  | [] | [_] => simp [hbytes] at hlen
  | opa :: opb :: tail =>
    rw [decodeBytes_ok_of_decodeWindow (decodeWindow_opc hi i.mnemonic opa opb), instr_eq_of_operands_append hbytes]

/-- Settles O2: bytes that decode are a row's opcode and two candidate operands, of which the instruction uses the first. -/
theorem decodedBytesBeginWithEncoding : Obligations.DecodedBytesBeginWithEncoding := by
  intro opc bytes i h
  obtain ⟨m, opa, opb, rest, rfl, rfl⟩ := exists_row_of_decodeBytes_ok h
  obtain ⟨tail, htail⟩ := operands_instr_isPrefix m opa opb rest
  exact ⟨tail, by rw [encode, m.instr_mnemonic, List.cons_append, htail]⟩

/-- Settles O3: the decoder rejects as unknown what the table's lookup does not find. -/
theorem unknownOpcodeRejectedByName : Obligations.UnknownOpcodeRejectedByName :=
  fun _ _ _ _ _ => decodeBytes_unknown_iff.trans decodeWindow_none

/-- Settles O4: each word's low byte is the opcode of its row, or of none. -/
theorem defaultOpcodeWordsDecode : Obligations.DefaultOpcodeWordsDecode :=
  ⟨decodeTableWord_row .ldi rfl, decodeTableWord_row .hlt rfl, decodeTableWord_row .prn rfl,
    decodeTableWord_row .mul rfl, decodeTableWord_row .cmp rfl, decodeTableWord_row .push rfl, decodeTableWord_row .pop rfl,
    decodeTableWord_row .call rfl, decodeTableWord_row .ret rfl, decodeTableWord_none (by decide),
    decodeTableWord_none (by decide)⟩

/-- Settles O5: the default map is injective, and every injective map leaves 247 byte values. -/
theorem defaultOpcodesDistinct : Obligations.DefaultOpcodesDistinct :=
  ⟨opc_injective, length_filter_lookupOpcode_none opc_injective⟩

/-- Settles O24: the one register operand of each of the five is the one reported. -/
theorem badRegisterOperandFaults : Obligations.BadRegisterOperandFaults := by
  intro s reg value hreg i hi
  have hops : ∀ j ∈ [Instr.ldi reg value, .prn reg, .push reg, .pop reg, .call reg], j.regOperands = [reg] := by
    simp [Instr.regOperands]
  rw [exec_of_firstBadOperand (firstBadOperand_first (hops i hi) hreg), badOperand_eq]

/-- Settles O25: of the two register operands the first bad one is reported. -/
theorem badRegisterPairFaults : Obligations.BadRegisterPairFaults := by
  intro s regA regB i hi
  have hops : ∀ j ∈ [Instr.mul regA regB, .cmp regA regB], j.regOperands = [regA, regB] := by simp [Instr.regOperands]
  constructor
  · intro hA
    rw [exec_of_firstBadOperand (firstBadOperand_first (hops i hi) hA), badOperand_eq]
  · intro hA hB
    rw [exec_of_firstBadOperand (firstBadOperand_second (hops i hi) hA hB), badOperand_eq]

end Sys2Proof.Machine
end

section
/-!
What the statements of 40_engine.md need beside the cases of a step: an invariant carries along a run, and the run state after an
instruction and after a step.
-/
namespace Sys2Proof.Machine

section Runs
variable {M : Host.Core} {n : Nat} {s u : M.State}

/-- A run whose first step answers `u` goes on from `u`. -/
theorem run_succ_of_step (h : M.step s = .next u) : M.run (n + 1) s = M.run n u := by
  simp only [Host.Core.run, h]

/-- Where every step from a state with the property answers a state with it, so does a run of any length. -/
theorem run_answers_invariant {I : M.State → Prop} (hstep : ∀ s, I s → ∃ t, M.step s = .next t ∧ I t) (n : Nat)
    (hs : I s) : ∃ t, M.run n s = .next t ∧ I t := by
  induction n generalizing s with
  | zero => exact ⟨s, rfl, hs⟩
  | succ n ih =>
    obtain ⟨u, hu, hinv⟩ := hstep s hs
    rw [run_succ_of_step hu]
    exact ih hinv

end Runs

section RunState
variable {i : Instr} {s t : State}

/-- A well-formed instruction other than HLT leaves the run state. -/
theorem exec_run_of_wellFormed (hwf : i.wellFormed = true) (hhlt : i ≠ .hlt) (h : exec i s = .next t) : t.run = s.run := by
  rcases exec_cases i s t h with ⟨b, v, r, -, -, rfl⟩ | ⟨hi, -⟩ | ⟨b, r, -, -, rfl⟩ | ⟨b, c, r, q, -, -, -, rfl⟩ |
    ⟨b, c, r, q, -, -, -, rfl⟩ | ⟨b, r, -, -, rfl⟩ | ⟨b, r, -, -, rfl⟩ | ⟨b, r, -, -, rfl⟩ | ⟨-, rfl⟩ | ⟨b, hb, -, -⟩
  -- the outcome of HLT
  case inr.inl => exact absurd hi hhlt
  -- the exception of a bad operand
  case inr.inr.inr.inr.inr.inr.inr.inr.inr => simp [i.wellFormed_iff.1 hwf] at hb
  all_goals rfl

theorem step_run_of_hlt (hex : s.Executes .hlt) (h : step s = .next t) : t.run = .halted := by
  obtain rfl := Host.Outcome.next.inj (h.symm.trans (step_of_executes hex))
  rfl

theorem step_run_of_wellFormed (hex : s.Executes i) (hwf : i.wellFormed = true) (hhlt : i ≠ .hlt) (h : step s = .next t) :
    t.run = .running :=
  (exec_run_of_wellFormed hwf hhlt ((step_of_executes hex).symm.trans h)).trans hex.1

/-- What a step can make of the run state Running, once (40_engine.md R71): HLT leaves it for Halted, another well-formed
instruction keeps it, and the rest leave it for Faulted. -/
theorem step_run_cases (hr : s.run = .running) (h : step s = .next t) :
    (s.Executes .hlt ∧ t.run = .halted) ∨
    ((∃ i, s.Executes i ∧ i.wellFormed = true ∧ i ≠ .hlt) ∧ t.run = .running) ∨
    t.run = .faulted := by
  rcases step_cases h with ⟨hterm, -⟩ | ⟨-, e, -, rfl⟩ | ⟨i, hex, he⟩
  · exact absurd hr hterm
  · exact .inr (.inr rfl)
  · by_cases hhlt : i = .hlt
    · subst hhlt
      exact .inl ⟨hex, step_run_of_hlt hex h⟩
    · cases hwf : i.wellFormed with
      | true => exact .inr (.inl ⟨⟨i, hex, hwf, hhlt⟩, step_run_of_wellFormed hex hwf hhlt h⟩)
      | false =>
        obtain ⟨b, rfl⟩ := exec_of_illFormed hwf he
        exact .inr (.inr rfl)

end RunState

end Sys2Proof.Machine
end

section
namespace Sys2Proof.Machine

/-- Settles O42: every step from a state that meets the invariant answers one that meets it, and so does every run. -/
theorem runsKeepInvariant : Obligations.RunsKeepInvariant := by
  intro n s hinv
  have hstep : ∀ s : State, s.Inv → ∃ t, step s = .next t ∧ t.Inv := fun s h =>
    step_eq_stepAt s ▸ invariantUnderAnyParameters Config.params s h
  exact run_answers_invariant (M := core) hstep n hinv

/-- Settles O13: by the cases of the run state after a step from Running; a terminal state answers itself. -/
theorem runStateTransitions : Obligations.RunStateTransitions := by
  intro s t h
  have hold (hterm : s.run ≠ .running) : t = s := Host.Outcome.next.inj (h.symm.trans (step_of_terminal hterm))
  refine ⟨fun hr => ⟨fun hhalted => ?_, fun hex => step_run_of_hlt hex h⟩,
    fun hr => ⟨fun hrunning => ?_, fun ⟨i, hex, hwf, hhlt⟩ => step_run_of_wellFormed hex hwf hhlt h⟩,
    fun hr => ?_, fun hr => ?_⟩
  · rcases step_run_cases hr h with ⟨hex, -⟩ | ⟨-, hrun⟩ | hrun
    · exact hex
    · simp [hrun] at hhalted
    · simp [hrun] at hhalted
  · rcases step_run_cases hr h with ⟨-, hrun⟩ | ⟨hex, -⟩ | hrun
    · simp [hrun] at hrunning
    · exact hex
    · simp [hrun] at hrunning
  · rw [hold (by simp [hr]), hr]
  · rw [hold (by simp [hr]), hr]

/-- Settles O6: inside the window the fetch gives the three bytes at `pc`, and dispatch their decoding. -/
theorem stepRunsDecodedInstruction : Obligations.StepRunsDecodedInstruction :=
  fun _ _ hr hpc hd => step_of_executes ⟨hr, (fetchInstr_inside hpc).trans (dispatch_some hd)⟩

/-- Settles O7: the fetch raises `OutOfBounds(256)`, and the step takes that exception. -/
theorem fetchPastWindowFaults : Obligations.FetchPastWindowFaults :=
  fun _ hr hlow hhigh => step_of_raise hr (fetchInstr_outside hlow hhigh)

/-- Settles O8: the default opcodes are distinct, so a row's byte decodes to that row; a byte outside the table decodes to
nothing, and the step takes the exception that dispatch raises. -/
theorem dispatchLooksUpOpcode : Obligations.DispatchLooksUpOpcode := by
  have hunknown (w : FetchWindow) (hw : ¬ InTable Config.opc w.opcode) :
      dispatch w = .error ⟨.unknownInstruction, w.opcode.toNat⟩ :=
    dispatch_none (decodeWindow_none.2 fun m hm => hw ⟨m, hm⟩)
  refine ⟨fun w m hm => ?_, hunknown, fun s hr hpc hw => ?_⟩
  · obtain ⟨opcode, opa, opb⟩ := w
    obtain rfl : Config.opc m = opcode := hm
    exact dispatch_some (decodeWindow_opc opc_injective m opa opb)
  · exact ⟨_, step_of_raise hr ((fetchInstr_inside hpc).trans (hunknown s.windowBytes hw)), rfl, rfl, ofNat9_byte _⟩

/-- Settles O9: the model's law about a machine that is not Running. -/
theorem terminalStatesHold : Obligations.TerminalStatesHold :=
  fun _ => step_of_terminal

end Sys2Proof.Machine
end

section
/-!
What the statements of 41_alu.md need: an equation for each ALU operation at the default flag values and the byte it leaves, what
a comparison's result says of the ordering, and the causes that an instruction, and fetch and dispatch, can record.
-/
namespace Sys2Proof.Machine

section Operations
variable (a b : RegIndex) (s : State)

theorem aluOp_add : aluOp .add a b s = s.setReg a (trunc8 ((s.reg a).toNat + (s.reg b).toNat)) := rfl

theorem aluOp_multiply : aluOp .multiply a b s = s.setReg a (trunc8 ((s.reg a).toNat * (s.reg b).toNat)) := rfl

theorem aluOp_add_result : ((aluOp .add a b s).reg a).toNat = ((s.reg a).toNat + (s.reg b).toNat) % 256 := by
  rw [aluOp_add, reg_setReg_self, ← Nat.cast_add, trunc8_natCast_toNat]

theorem aluOp_multiply_result :
    ((aluOp .multiply a b s).reg a).toNat = ((s.reg a).toNat * (s.reg b).toNat) % 256 := by
  rw [aluOp_multiply, reg_setReg_self, ← Nat.cast_mul, trunc8_natCast_toNat]

theorem sameRegsBut_setReg (v : Byte) : SameRegsBut a s (s.setReg a v) := fun _ hk => reg_setReg_ne s v hk

end Operations

section Comparison
variable {c : Config.FlagCodes} (x y : Byte)

/-- Under legal flag values `FLAG_E` says that the bytes are equal: no other ordering gives it (41_alu.md R84). -/
theorem compareFlags_eq_equal_iff (hc : c.Legal) : compareFlags c x y = c.equal ↔ x.toNat = y.toNat := by
  obtain ⟨-, -, -, hel, heg, -⟩ := hc
  rcases compareFlags_cases c x y with ⟨h, hcmp⟩ | ⟨h, hcmp⟩ | ⟨h, hcmp⟩
  · simp [hcmp, h]
  · simp [hcmp, hel.symm, h.ne]
  · simp [hcmp, heg.symm, h.ne']

/-- Under legal flag values `FLAG_L` says that the first byte is less. -/
theorem compareFlags_eq_less_iff (hc : c.Legal) : compareFlags c x y = c.less ↔ x.toNat < y.toNat := by
  obtain ⟨-, -, -, hel, -, hlg⟩ := hc
  rcases compareFlags_cases c x y with ⟨h, hcmp⟩ | ⟨h, hcmp⟩ | ⟨h, hcmp⟩
  · simp [hcmp, hel, h]
  · simp [hcmp, h]
  · simp [hcmp, hlg.symm, h.le]

/-- Under legal flag values `FLAG_G` says that the first byte is greater. -/
theorem compareFlags_eq_greater_iff (hc : c.Legal) : compareFlags c x y = c.greater ↔ y.toNat < x.toNat := by
  obtain ⟨-, -, -, -, heg, hlg⟩ := hc
  rcases compareFlags_cases c x y with ⟨h, hcmp⟩ | ⟨h, hcmp⟩ | ⟨h, hcmp⟩
  · simp [hcmp, heg, h]
  · simp [hcmp, hlg, h.le]
  · simp [hcmp, h]

end Comparison

section Causes
variable {i : Instr} {s t : State}

/-- What an instruction can do to the cause, once: nothing, or record a bad register operand (60_exceptions.md R112). -/
theorem exec_cause_cases (h : exec i s = .next t) : t.cause = s.cause ∨ t.cause = some .registerIndex := by
  rcases exec_cases i s t h with ⟨b, v, r, -, -, rfl⟩ | ⟨-, rfl⟩ | ⟨b, r, -, -, rfl⟩ | ⟨b, c, r, q, -, -, -, rfl⟩ |
    ⟨b, c, r, q, -, -, -, rfl⟩ | ⟨b, r, -, -, rfl⟩ | ⟨b, r, -, -, rfl⟩ | ⟨b, r, -, -, rfl⟩ | ⟨-, rfl⟩ | ⟨b, -, -, rfl⟩
  -- the exception of a bad operand
  case inr.inr.inr.inr.inr.inr.inr.inr.inr => exact .inr rfl
  all_goals exact .inl rfl

/-- What fetch and dispatch can raise, wherever `pc` is: `OutOfBounds` or `UnknownInstruction` (40_engine.md R66, R67). -/
theorem fetchInstr_error_cause {e : Exc} (h : fetchInstr s = .error e) :
    e.cause = .outOfBounds ∨ e.cause = .unknownInstruction := by
  by_cases hpc : s.pc.toNat ≤ 256
  · rcases fetchInstr_error hpc h with ⟨-, rfl⟩ | ⟨-, -, rfl⟩
    · exact .inl rfl
    · exact .inr rfl
  · have hraise : fetchInstr s = .error ⟨.outOfBounds, s.pc.toNat⟩ := by
      simp [fetchInstr, fetchInstrWith, fetch, memRead_outside (show 256 ≤ s.pc.toNat by omega)]
    obtain rfl := Except.error.inj (h.symm.trans hraise)
    exact .inl rfl

end Causes

end Sys2Proof.Machine
end

section
namespace Sys2Proof.Machine

/-- Settles O29: the select 3 is no tag; the exceptions of fetch and dispatch and that of a bad operand have other causes, and
no instruction records a cause otherwise. -/
theorem unsupportedAluTagRaises : Obligations.UnsupportedAluTagRaises := by
  refine ⟨fun _ _ _ => rfl, aluPort_select, fun s t _ h ht => ?_⟩
  rcases step_cases h with ⟨-, rfl⟩ | ⟨-, e, he, rfl⟩ | ⟨i, -, he⟩
  · exact ht
  · rcases fetchInstr_error_cause he with hcause | hcause <;> simp [hcause] at ht
  · rcases exec_cause_cases he with hcause | hcause
    · exact hcause ▸ ht
    · simp [hcause] at ht

/-- Settles O26: MULTIPLY is one register write, of the product truncated to a byte. -/
theorem aluMultiplyKeepsLowByte : Obligations.AluMultiplyKeepsLowByte :=
  fun s a b => ⟨aluOp_multiply_result a b s, sameRegsBut_setReg a s _, rfl, rfl, fun _ => rfl, ⟨rfl, rfl, rfl⟩, rfl⟩

/-- Settles O27: ADD is one register write, of the sum truncated to a byte. -/
theorem aluAddWraps : Obligations.AluAddWraps :=
  fun s a b => ⟨aluOp_add_result a b s, sameRegsBut_setReg a s _, rfl, rfl, fun _ => rfl, ⟨rfl, rfl, rfl⟩, rfl⟩

/-- Settles O16: MUL is MULTIPLY on the named registers and the advance of `pc`. -/
theorem mulMultipliesModulo256 : Obligations.MulMultipliesModulo256 := by
  intro s regA regB a b ha hb
  exact ⟨_, execMul_valid s ha hb, aluOp_multiply_result a b s, sameRegsBut_setReg a s _,
    fun hpc => advance_toNat hpc le_rfl, rfl, fun _ => rfl, ⟨rfl, rfl, rfl⟩, rfl⟩

/-- Settles O17: CMP under any flag values, at the defaults. -/
theorem cmpSetsFlags : Obligations.CmpSetsFlags := by
  intro s regA regB a b ha hb
  obtain ⟨t, ht, hequal, hless, hgreater, -, hframe⟩ := cmpUnderAnyFlagValues Config.params s regA regB a b ha hb
  exact ⟨t, ht, hequal, hless, hgreater, hframe⟩

/-- Settles O28: the three flag values are distinct, so each result says which ordering gave it. -/
theorem compareSetsExactlyOneFlag : Obligations.CompareSetsExactlyOneFlag :=
  fun _ hc a b => ⟨compareFlags_eq_equal_iff a b hc, compareFlags_eq_less_iff a b hc, compareFlags_eq_greater_iff a b hc,
    compareFlags_one_bit a b hc⟩

end Sys2Proof.Machine
end

section
/-!
What the statements about two instructions in a row need: the step of a Running machine that stands at a row's opcode byte.
-/
namespace Sys2Proof.Machine

/-- A Running machine inside the fetch window that stands at a row's opcode byte carries out that row's instruction, with the two
bytes after it as candidate operands (40_engine.md R66 to R69). -/
theorem step_of_opcode {s : State} {m : Mnemonic} (hr : s.run = .running) (hpc : s.pc.toNat ≤ 253)
    (hm : s.mem.read s.pc.toNat = Config.opc m) :
    step s = exec (m.instr (s.mem.read (s.pc.toNat + 1)) (s.mem.read (s.pc.toNat + 2))) s := by
  have hd := decodeWindow_opc opc_injective m (s.mem.read (s.pc.toNat + 1)) (s.mem.read (s.pc.toNat + 2))
  rw [← hm] at hd
  exact stepRunsDecodedInstruction s _ hr hpc hd

end Sys2Proof.Machine
end

section
namespace Sys2Proof.Machine

/-- Settles O14: LDI is one register write and the advance of `pc`. -/
theorem ldiLoadsImmediate : Obligations.LdiLoadsImmediate :=
  fun s _ value r hr => ⟨_, execLdi_valid s hr value, reg_setReg_self s r value, sameRegsBut_setReg r s value,
    fun hpc => advance_toNat hpc le_rfl, rfl, fun _ => rfl, ⟨rfl, rfl, rfl⟩, rfl⟩

/-- Settles O15: PRN is one emission and the advance of `pc`. -/
theorem prnEmitsRegister : Obligations.PrnEmitsRegister :=
  fun s _ _ hr => ⟨_, execPrn_valid s hr, rfl, fun _ => rfl, fun hpc => advance_toNat hpc (by omega), rfl, fun _ => rfl,
    ⟨rfl, rfl, rfl⟩⟩

/-- Settles O48: by what LDI and PRN each do. LDI changes neither memory nor the run state, so the second step finds PRN 3 bytes
on and emits the byte that LDI left in the register. -/
theorem ldiThenPrnEmitsValue : Obligations.LdiThenPrnEmitsValue := by
  intro s r v hr hpc hldi hreg hval hprn hreg'
  obtain ⟨t, ht, htr, -, htpc, -, htmem, htstatus, htout⟩ := ldiLoadsImmediate s _ v r hreg
  obtain ⟨u, hu, huout, huregs, hupc, -⟩ := prnEmitsRegister t _ r hreg'
  replace htpc := htpc (by omega)
  replace hupc := hupc (by omega)
  have hstep : step s = .next t := by
    rw [step_of_opcode hr (by omega) hldi, hval]
    exact ht
  have hprn' : t.mem.read t.pc.toNat = Config.opc .prn := by rw [htpc, htmem, hprn]
  have hstep' : step t = .next u := by
    rw [step_of_opcode (htstatus.run.trans hr) (by omega) hprn', htpc, htmem]
    exact hu
  refine ⟨t, u, hstep, hstep', ?_, (huregs r).trans htr, ?_⟩
  · rw [huout, htr, htout]
  · rw [hupc, htpc]

end Sys2Proof.Machine
end

section
/-!
What the statements of 43_stack.md need: `SP` after each of its updates as a number, the registers after the two writes of POP, and
that an unchanged status passes along two instructions in a row.
-/
namespace Sys2Proof.Machine

section Registers
variable (s : State) {r k : RegIndex} (v : Byte)

/-- The decrement of `SP`, modulo 256 (10_state.md R13). -/
theorem sp_decSp_toNat_mod : s.decSp.sp.toNat = (s.sp.toNat + 255) % 256 := by rw [sp_decSp, trunc8_pred_toNat]

/-- The increment of `SP`, modulo 256 (10_state.md R13). -/
theorem sp_incSp_toNat_mod : s.incSp.sp.toNat = (s.sp.toNat + 1) % 256 := by rw [sp_incSp, trunc8_succ_toNat]

/-- The increment undoes the decrement, also where `SP` wraps. -/
theorem sp_eq_of_decSp_succ {t : State} (h : t.sp.toNat = (s.decSp.sp.toNat + 1) % 256) : t.sp = s.sp := by
  have hlt := s.sp.isLt
  have hdec := sp_decSp_toNat_mod s
  exact BitVec.eq_of_toNat_eq (by omega)

/-- The register that POP loads, other than `SP`, keeps the byte through the increment. -/
theorem reg_incSp_setReg_self (hr : r ≠ Config.spIndex) : (s.setReg r v).incSp.reg r = v :=
  (reg_incSp_ne _ hr).trans (reg_setReg_self s r v)

theorem reg_incSp_setReg_ne (hk : k ≠ r) (hsp : k ≠ Config.spIndex) : (s.setReg r v).incSp.reg k = s.reg k :=
  (reg_incSp_ne _ hsp).trans (reg_setReg_ne s v hk)

/-- The increment of POP counts from the old `SP` where the loaded register is another one. -/
theorem sp_incSp_setReg_ne (hr : r ≠ Config.spIndex) : (s.setReg r v).incSp.sp.toNat = (s.sp.toNat + 1) % 256 := by
  rw [sp_incSp_toNat_mod, sp_setReg, if_neg hr]

/-- The increment of POP counts from the loaded byte where the loaded register is `SP` (43_stack.md R97). -/
theorem sp_incSp_setReg_sp : (s.setReg Config.spIndex v).incSp.sp.toNat = (v.toNat + 1) % 256 := by
  rw [sp_incSp_toNat_mod, sp_setReg, if_pos rfl]

end Registers

theorem SameStatus.trans {s t u : State} (h : SameStatus s t) (k : SameStatus t u) : SameStatus s u :=
  ⟨k.run.trans h.run, k.cause.trans h.cause, k.info.trans h.info⟩

end Sys2Proof.Machine
end

section
namespace Sys2Proof.Machine

/-- Settles O18: PUSH is the decrement of `SP`, one store at the new `SP` and the advance of `pc`. -/
theorem pushStoresRegister : Obligations.PushStoresRegister :=
  fun s _ r hr => ⟨_, execPush_valid s hr, rfl, sp_decSp_toNat_mod s, fun _ => reg_decSp_ne s,
    read_write_same s.mem s.decSp.sp.toNat (s.decSp.reg r), fun _ hne => read_write_ne s.mem hne _,
    fun hpc => advance_toNat hpc (by omega), rfl, ⟨rfl, rfl, rfl⟩, rfl⟩

/-- Settles O19: POP is one register write, the increment of `SP` and the advance of `pc`; for register 7 the increment counts from
the byte just written. -/
theorem popLoadsRegister : Obligations.PopLoadsRegister := by
  intro s reg r hr
  refine ⟨_, execPop_valid s hr, fun hne => ⟨reg_incSp_setReg_self s _ hne, sp_incSp_setReg_ne s _ hne⟩, ?_,
    fun _ => reg_incSp_setReg_ne s _, fun hpc => advance_toNat hpc (by omega), rfl, fun _ => rfl, ⟨rfl, rfl, rfl⟩, rfl⟩
  rintro rfl
  exact sp_incSp_setReg_sp s _

/-- Settles O23: PUSH and POP of any register, at register 7, and what CALL completes in there. -/
theorem stackPointerAsOperand : Obligations.StackPointerAsOperand := by
  intro s
  have h7 : Names 7#8 Config.spIndex := rfl
  refine ⟨?_, ?_, ?_⟩
  · obtain ⟨t, ht, hsp, hdec, -, hcell, hmem, -⟩ := pushStoresRegister s _ _ h7
    rw [← hsp] at hcell hmem
    exact ⟨t, ht, hdec, hcell, hmem⟩
  · obtain ⟨t, ht, -, hsp, -⟩ := popLoadsRegister s _ _ h7
    exact ⟨t, ht, hsp rfl⟩
  · have hcall := execCall_valid s h7
    refine ⟨_, hcall, sp_decSp_toNat_mod s, zext9_toNat _, fun hpc => ?_, fun _ hne => read_write_ne s.mem hne _⟩
    rw [read_sp_of_call h7 hcall, returnByte_toNat hpc]

/-- Settles O49: by what PUSH and POP each do. The push lands on neither byte of the POP, so the second step finds it 2 bytes on,
pops the byte just pushed and brings `SP` back. -/
theorem pushThenPopRoundTrip : Obligations.PushThenPopRoundTrip := by
  intro s r q hrun hpc hr hq hpush hreg hpop hreg' hne hne'
  obtain ⟨t, ht, htsp, -, htregs, htcell, htmem, htpc, htfl, htstatus, htout⟩ := pushStoresRegister s _ r hreg
  obtain ⟨u, hu, hupop, -, huregs, hupc, hufl, humem, hustatus, huout⟩ := popLoadsRegister t _ q hreg'
  obtain ⟨huq, husp⟩ := hupop hq
  replace htpc := htpc (by omega)
  replace hupc := hupc (by omega)
  have hstep : step s = .next t := (step_of_opcode hrun (by omega) hpush).trans ht
  have hpop' : t.mem.read t.pc.toNat = Config.opc .pop := by rw [htpc, htmem _ hne.symm, hpop]
  have hstep' : step t = .next u := by
    rw [step_of_opcode (htstatus.run.trans hrun) (by omega) hpop', htpc, htmem _ hne'.symm]
    exact hu
  have hcell : t.mem.read s.decSp.sp.toNat = s.reg r := htcell.trans (htregs r hr)
  have hsp : u.sp = s.sp := sp_eq_of_decSp_succ s (htsp ▸ husp)
  refine ⟨t, u, hstep, hstep', ?_, hsp, by omega, (humem _).trans hcell, fun k hk => ?_,
    fun a ha => (humem a).trans (htmem a ha), hufl.trans htfl, htstatus.trans hustatus, huout.trans htout⟩
  · rw [huq, htsp, hcell]
  · by_cases hk7 : k = Config.spIndex
    · exact hk7 ▸ hsp
    · exact (huregs k hk hk7).trans (htregs k hk7)

end Sys2Proof.Machine
end

section
namespace Sys2Proof.Machine

/-- Settles O20: CALL is the decrement of `SP`, one store of the return byte at the new `SP` and the jump. -/
theorem callLinksAndJumps : Obligations.CallLinksAndJumps := by
  intro s reg r hr
  have hcall := execCall_valid s hr
  refine ⟨_, hcall, rfl, sp_decSp_toNat_mod s, fun _ => reg_decSp_ne s, fun hpc => ?_, fun _ hne => read_write_ne s.mem hne _,
    zext9_toNat _, rfl, ⟨rfl, rfl, rfl⟩, rfl⟩
  exact (congrArg BitVec.toNat (read_sp_of_call hr hcall)).trans (returnByte_toNat hpc)

/-- Settles O21: the default opcodes are distinct, a fetch at 254 or above raises, and RET is the jump to the cell at `SP` and the
increment. -/
theorem retReturns : Obligations.RetReturns := by
  refine ⟨fun _ => rfl, decodeWindow_opc opc_injective .ret, fun s hpc hex => ?_, fun s => ?_⟩
  · obtain ⟨hwindow, -⟩ := fetchInstr_ok hex.2
    omega
  · exact ⟨_, execRet_eq s, zext9_toNat _, sp_incSp_toNat_mod (s.setPc _), fun _ => reg_incSp_ne (s.setPc _), rfl, fun _ => rfl,
      ⟨rfl, rfl, rfl⟩, rfl⟩

/-- Settles O22: HLT's meaning is the one update of the run state. -/
theorem hltHalts : Obligations.HltHalts := fun _ => rfl

/-- Settles O50: by what CALL and RET each do. The link byte does not land on the RET, so the second step finds it at the target,
jumps to the byte just stored and brings `SP` back. -/
theorem callThenRetReturns : Obligations.CallThenRetReturns := by
  intro s r hrun hpc hr hcall hreg htarget hret hne
  obtain ⟨-, -, -, hexecRet⟩ := retReturns
  obtain ⟨t, ht, htsp, -, htregs, htlink, htmem, htpc, htfl, htstatus, htout⟩ := callLinksAndJumps s _ r hreg
  obtain ⟨u, hu, hupc, husp, huregs, hufl, humem, hustatus, huout⟩ := hexecRet t
  replace htlink := htlink hpc
  replace htpc : t.pc.toNat = (s.reg r).toNat := htregs r hr ▸ htpc
  have hstep : step s = .next t := (step_of_opcode hrun hpc hcall).trans ht
  have hret' : t.mem.read t.pc.toNat = Config.opc .ret := by rw [htpc, htmem _ hne.symm, hret]
  have hstep' : step t = .next u := (step_of_opcode (htstatus.run.trans hrun) (by omega) hret').trans hu
  have hsp : u.sp = s.sp := sp_eq_of_decSp_succ s (htsp ▸ husp)
  refine ⟨t, u, hstep, hstep', ?_, hsp, ?_, fun k => ?_, fun a ha => (humem a).trans (htmem a ha), hufl.trans htfl,
    htstatus.trans hustatus, huout.trans htout⟩
  · rw [hupc, htsp, htlink]
  · rw [humem, htlink]
  · by_cases hk : k = Config.spIndex
    · exact hk ▸ hsp
    · exact (huregs k hk).trans (htregs k hk)

end Sys2Proof.Machine
end

section
/-!
What the statements of 60_exceptions.md need: an exception as the fault it records, and that a well-formed instruction takes none.
-/
namespace Sys2Proof.Machine

/-- Taking an exception records it and changes nothing else (60_exceptions.md R113). -/
theorem faultedWith_takeException (e : Exc) (s : State) :
    FaultedWith e.cause (BitVec.ofNat 9 e.info) s (takeException e s) := rfl

section WellFormed
variable {i : Instr} {s t : State}

/-- A well-formed instruction leaves the fault record, HLT included (60_exceptions.md R111). -/
theorem exec_record_of_wellFormed (hwf : i.wellFormed = true) (h : exec i s = .next t) :
    t.cause = s.cause ∧ t.info = s.info := by
  rcases exec_cases i s t h with ⟨b, v, r, -, -, rfl⟩ | ⟨-, rfl⟩ | ⟨b, r, -, -, rfl⟩ | ⟨b, c, r, q, -, -, -, rfl⟩ |
    ⟨b, c, r, q, -, -, -, rfl⟩ | ⟨b, r, -, -, rfl⟩ | ⟨b, r, -, -, rfl⟩ | ⟨b, r, -, -, rfl⟩ | ⟨-, rfl⟩ | ⟨b, hb, -, -⟩
  -- the exception of a bad operand
  case inr.inr.inr.inr.inr.inr.inr.inr.inr => simp [i.wellFormed_iff.1 hwf] at hb
  all_goals exact ⟨rfl, rfl⟩

/-- A well-formed instruction takes no exception: it leaves the run state, or halts. -/
theorem exec_not_faulted_of_wellFormed (hr : s.run = .running) (hwf : i.wellFormed = true) (h : exec i s = .next t) :
    t.run ≠ .faulted := by
  by_cases hhlt : i = .hlt
  · subst hhlt
    obtain rfl := Host.Outcome.next.inj ((hltHalts s).symm.trans h)
    simp
  · simp [exec_run_of_wellFormed hwf hhlt h, hr]

end WellFormed

end Sys2Proof.Machine
end

section
namespace Sys2Proof.Machine

/-- Settles O12: `pc` decides whether the fetch raises, then the decoding of the window whether dispatch does, and then the
first bad operand whether the instruction does. -/
theorem faultPriorityOrder : Obligations.FaultPriorityOrder := by
  intro s t hr hpc h
  have hexec {i : Instr} (hin : s.pc.toNat ≤ 253) (hd : decodeWindow Config.opc s.windowBytes = some i) :
      exec i s = .next t := (stepRunsDecodedInstruction s i hr hin hd).symm.trans h
  refine ⟨fun hout => ?_, fun hin hnone => ?_, fun i b hin hd hb => ?_, fun i hin hd hwf => ?_⟩
  · exact Host.Outcome.next.inj (h.symm.trans (fetchPastWindowFaults s hr hout hpc))
  · have hraise := step_of_raise hr ((fetchInstr_inside hin).trans (dispatch_none hnone))
    obtain rfl := Host.Outcome.next.inj (hraise.symm.trans h)
    exact ofNat9_byte (s.mem.read s.pc.toNat) ▸ faultedWith_takeException _ s
  · obtain rfl := Host.Outcome.next.inj ((exec_of_firstBadOperand hb s).symm.trans (hexec hin hd))
    exact badOperand_eq b s
  · exact ⟨exec_not_faulted_of_wellFormed hr hwf (hexec hin hd), exec_record_of_wellFormed hwf (hexec hin hd)⟩

/-- Settles O11: the step took an exception of fetch or dispatch, or its instruction faulted, and then it is ill-formed and took
the exception of a bad operand. -/
theorem faultsArePrecise : Obligations.FaultsArePrecise := by
  intro s t hr h hfault
  rcases step_cases h with ⟨hterm, -⟩ | ⟨-, e, -, rfl⟩ | ⟨i, -, he⟩
  · exact absurd hr hterm
  · exact ⟨_, _, faultedWith_takeException e s⟩
  · cases hwf : i.wellFormed with
    | true => exact absurd hfault (exec_not_faulted_of_wellFormed hr hwf he)
    | false =>
      obtain ⟨b, rfl⟩ := exec_of_illFormed hwf he
      exact ⟨_, _, badOperand_eq b s⟩

/-- Settles O10: the step and the instructions are those of the parametric machine, which always answers. -/
theorem everyStepAnswersNext : Obligations.EveryStepAnswersNext :=
  ⟨fun s => step_eq_stepAt s ▸ stepAt_answers Config.params s,
    fun i s => exec_eq_execAt i s ▸ execAt_answers Config.params i s⟩

end Sys2Proof.Machine
end

section
/-!
What the statements of 70_reset_and_hazards.md need: when the image load is refused, and when it answers.
-/
namespace Sys2Proof.Machine

section LoadAnswers
variable {img : List Nat} (s : State)

/-- The load refuses an image that is too long or holds an element that is no byte (70_reset_and_hazards.md R132). -/
theorem load_of_not_loadable (h : 256 < img.length ∨ ∃ v ∈ img, 256 ≤ v) : load img s = none := by
  rw [Option.eq_none_iff_forall_not_mem]
  intro t ht
  obtain ⟨⟨hlen, hbytes⟩, -⟩ := load_some ht
  rcases h with hlong | ⟨v, hv, hbig⟩
  · omega
  · exact absurd (hbytes v hv) (Nat.not_lt.2 hbig)

/-- The load answers for every other image (70_reset_and_hazards.md R132). -/
theorem load_of_loadable (hlen : img.length ≤ 256) (hbytes : ∀ v ∈ img, v < 256) :
    load img s = some { s with mem := s.mem.writeFrom 0 (img.map (BitVec.ofNat 8)) } :=
  if_pos ⟨hlen, hbytes⟩

end LoadAnswers

end Sys2Proof.Machine
end

section
namespace Sys2Proof.Machine

/-- Settles O45: `load_of_not_loadable` is the refusal; where the load answers, every cell lies in the image or beyond it. -/
theorem loadCopiesImage : Obligations.LoadCopiesImage := by
  intro img s
  refine ⟨load_of_not_loadable s, fun hlen hbytes => ?_⟩
  have hl := load_of_loadable s hlen hbytes
  exact ⟨_, hl, fun a ha => load_read_image hl ha, fun a ha => load_read_beyond hl ha, rfl⟩

/-- Settles O41: `FL_RESET` is 0 at the defaults. -/
theorem resetMeetsInvariant : Obligations.ResetMeetsInvariant :=
  resetAt_invAt (p := Config.params) rfl

/-- Settles O46: the reset state meets the invariant, and the load keeps it and writes memory only. -/
theorem bootedMachineMeetsInvariant : Obligations.BootedMachineMeetsInvariant := by
  intro img s hboot
  have hl : load img State.reset = some s := hboot
  obtain ⟨-, hs⟩ := load_some hl
  exact ⟨load_invAt resetMeetsInvariant rfl hl, hs ▸ rfl, hs ▸ rfl, hs ▸ sp_resetAt Config.params, hs ▸ rfl⟩

end Sys2Proof.Machine
end
